-- ==== Sys2Proof/Word.lean ====
section
/-! DEFINITION. The word types of the machine, each with the one width the spec gives it. -/

namespace Sys2Proof

/-- A byte: one element of Memory, one general register, one timer (10_state.md R10, R15, R17). -/
abbrev Byte := BitVec 8

/-- Sixteen bits: the instruction word, `I`, `pc`, a return address (10_state.md R12 to R14, 30_encoding.md R50). -/
abbrev Word := BitVec 16

/-- A register number, the 4-bit field `x` or `y`; every value names a register (10_state.md R10). -/
abbrev Reg := BitVec 4

/-- The 12-bit address or immediate `nnn` (30_encoding.md R51). -/
abbrev Addr := BitVec 12

/-- Sixteen key flags; bit `k` is 1 when key `k` is pressed (10_state.md R19). -/
abbrev Keys := BitVec 16

/-- The sixteen general registers `V[0]` to `V[0xF]` (10_state.md R10). -/
abbrev RegFile := Vector Byte 16

/-- The framebuffer, `fb[row][col]` with 32 rows of 64 one-bit pixels (10_state.md R18). -/
abbrev Framebuffer := Vector (Vector Bool 64) 32

/-- The glyph bitmaps `FONT`, glyph `d` at bytes `5 d` to `5 d + 4` (20_memory.md R33). -/
abbrev Font := Vector Byte 80

end Sys2Proof
end

