-- ==== Sys2Proof/Config.lean ====
section
/-! DEFINITION. The fixed sizes (00_scope.md R6), the parameters the spec leaves open (R7) and the free values.
A free value is an `opaque` constant applied to the counter `State.draws`: nothing can evaluate it, so a proof holds
for every value it may have. -/

namespace Sys2Proof

/-- `MEM_SIZE`: 4096 bytes, addresses 0x000 to 0xFFF (00_scope.md R6). -/
@[simp] abbrev Config.memSize : Nat := 4096

/-- `PROG_BASE`: where the image is loaded and the first instruction is fetched (00_scope.md R6). -/
@[simp] abbrev Config.progBase : Nat := 0x200

/-- `RESERVED`: the end of the glyph region (00_scope.md R7, 20_memory.md R31). -/
@[simp] abbrev Config.reserved : Nat := 0x50

/-- `MAX_IMAGE`: the longest image that fits (00_scope.md R6). -/
@[simp] abbrev Config.maxImage : Nat := 3584

/-- The parameters a model takes as an argument (00_scope.md R7; 92_eei_decisions.md D10, D19, D26).
`stackDepth = none` is "unbounded". A machine carries its own; no step changes them (log entry 3). -/
structure Config.Params where
  stackDepth     : Option Nat
  font           : Font
  spriteMsbFirst : Bool
  deriving DecidableEq, Repr, Inhabited

/-- The customary glyph table, the default of `FONT` (20_memory.md R33). PRESUMED: general knowledge by the spec's
own mark (93_implementation_defined.md G2), log entry 3. -/
def Config.defaultFont : Font :=
  #v[0xF0, 0x90, 0x90, 0x90, 0xF0,  0x20, 0x60, 0x20, 0x20, 0x70,
     0xF0, 0x10, 0xF0, 0x80, 0xF0,  0xF0, 0x10, 0xF0, 0x10, 0xF0,
     0x90, 0x90, 0xF0, 0x10, 0x10,  0xF0, 0x80, 0xF0, 0x10, 0xF0,
     0xF0, 0x80, 0xF0, 0x90, 0xF0,  0xF0, 0x10, 0x20, 0x40, 0x40,
     0xF0, 0x90, 0xF0, 0x90, 0xF0,  0xF0, 0x90, 0xF0, 0x10, 0xF0,
     0xF0, 0x90, 0xF0, 0x90, 0x90,  0xE0, 0x90, 0xE0, 0x90, 0xE0,
     0xF0, 0x80, 0x80, 0x80, 0xF0,  0xE0, 0x90, 0x90, 0x90, 0xE0,
     0xF0, 0x80, 0xF0, 0x80, 0xF0,  0xF0, 0x80, 0xF0, 0x80, 0x80]

/-- The parameters `State.reset` carries: an unbounded stack ("imposes no hard bound", 10_state.md R14), the customary
font, bit 7 of a sprite byte first. DESIGN CHOICE and PRESUMED: log entries 3 and 8. -/
def Config.defaultParams : Config.Params :=
  { stackDepth := none, font := Config.defaultFont, spriteMsbFirst := true }

/-- Every piece of state that `60_exceptions.md` R171 leaves unspecified once a fault is raised, as one bundle. -/
structure Config.Unspecified where
  cells    : List Host.Cell
  V        : RegFile
  I        : Word
  pc       : Word
  stack    : List Word
  DT       : Byte
  ST       : Byte
  fb       : Framebuffer
  prevKeys : Keys
  deriving DecidableEq, Repr, Inhabited

/-- The state a fault or a refused load leaves: a free value (60_exceptions.md R171, D16; log entry 19). -/
opaque Config.unspecified : Nat → Config.Unspecified

/-- How many ticks the host delivers before a cycle that no pending event describes: a free value
(40_cycle.md R80, D15; log entry 18). -/
opaque Config.freeTicks : Nat → Nat

/-- The `keys` input of such a cycle: a free value (10_state.md R19; log entry 1). -/
opaque Config.freeKeys : Nat → Keys

/-- The `rnd` input of such a cycle: a free value (42_alu.md R132, D14; log entry 17). -/
opaque Config.freeRnd : Nat → Byte

/-- Which of several freshly pressed keys ends a wait: a free value (40_cycle.md R78, D13; log entry 16). -/
opaque Config.freeChoice : Nat → Nat

end Sys2Proof
end

