-- ==== Sys2Proof/Syntax.lean ====
section
/-! DEFINITION. The syntax of the 34 instructions, one constructor per row of spec/opcode_table.json, in its order
(30_encoding.md R57). A bit the encoding ignores is no operand (R52, R54, R55; log entry 30). -/

namespace Sys2Proof

/-- The instructions, with the operands 30_encoding.md R52 gives their formats. -/
inductive Instr where
  /-- `clear-screen` (44_display.md R151) -/
  | clearScreen
  /-- `return` (41_control_flow.md R100) -/
  | ret
  /-- `jump nnn` (R101) -/
  | jump (nnn : Addr)
  /-- `call nnn` (R102) -/
  | call (nnn : Addr)
  /-- `skip-eq-imm x,nn` (R103) -/
  | skipEqImm (x : Reg) (nn : Byte)
  /-- `skip-ne-imm x,nn` (R104) -/
  | skipNeImm (x : Reg) (nn : Byte)
  /-- `skip-eq-reg x,y` (R105) -/
  | skipEqReg (x y : Reg)
  /-- `load-imm x,nn` (42_alu.md R121) -/
  | loadImm (x : Reg) (nn : Byte)
  /-- `add-imm x,nn` (R122) -/
  | addImm (x : Reg) (nn : Byte)
  /-- `load-reg x,y` (R123) -/
  | loadReg (x y : Reg)
  /-- `or x,y` (R124) -/
  | orReg (x y : Reg)
  /-- `and x,y` (R125) -/
  | andReg (x y : Reg)
  /-- `xor x,y` (R126) -/
  | xorReg (x y : Reg)
  /-- `add-reg x,y` (R127) -/
  | addReg (x y : Reg)
  /-- `sub x,y` (R128) -/
  | sub (x y : Reg)
  /-- `shr x` (R129) -/
  | shr (x : Reg)
  /-- `subn x,y` (R130) -/
  | subn (x y : Reg)
  /-- `shl x` (R131) -/
  | shl (x : Reg)
  /-- `skip-ne-reg x,y` (41_control_flow.md R106) -/
  | skipNeReg (x y : Reg)
  /-- `load-index nnn` (43_index_memory.md R141) -/
  | loadIndex (nnn : Addr)
  /-- `jump-plus-v0 nnn` (41_control_flow.md R108) -/
  | jumpPlusV0 (nnn : Addr)
  /-- `rand x,nn` (42_alu.md R132) -/
  | rand (x : Reg) (nn : Byte)
  /-- `draw x,y,n`, `n` the number of sprite rows (44_display.md R152) -/
  | draw (x y : Reg) (n : Nat)
  /-- `skip-key-pressed x` (45_timers_keypad.md R160) -/
  | skipKeyPressed (x : Reg)
  /-- `skip-key-released x` (R161) -/
  | skipKeyReleased (x : Reg)
  /-- `load-delay x` (R162) -/
  | loadDelay (x : Reg)
  /-- `wait-key x` (R163) -/
  | waitKey (x : Reg)
  /-- `set-delay x` (R164) -/
  | setDelay (x : Reg)
  /-- `set-sound x` (R165) -/
  | setSound (x : Reg)
  /-- `add-index x` (43_index_memory.md R142) -/
  | addIndex (x : Reg)
  /-- `index-to-glyph x` (R143) -/
  | indexToGlyph (x : Reg)
  /-- `store-bcd x` (R144) -/
  | storeBcd (x : Reg)
  /-- `reg-dump x`, the registers `V[0]` to `V[x]` (R145) -/
  | regDump (x : Reg)
  /-- `reg-load x`, the registers `V[0]` to `V[x]` (R146) -/
  | regLoad (x : Reg)
  deriving DecidableEq, Repr

end Sys2Proof
end

