-- ==== Sys2Proof/WellFormed.lean ====
section
/-! DEFINITION. What the encoding admits beyond the operands' types, and which images a load accepts. -/

namespace Sys2Proof

/-- The row count of `draw` is 0 to 15 (30_encoding.md R53); every other operand is bounded by its type. -/
def Instr.wellFormed : Instr → Bool
  | .draw _ _ n => n ≤ 15
  | .clearScreen | .ret | .jump _ | .call _ | .skipEqImm _ _ | .skipNeImm _ _ | .skipEqReg _ _ | .loadImm _ _
  | .addImm _ _ | .loadReg _ _ | .orReg _ _ | .andReg _ _ | .xorReg _ _ | .addReg _ _ | .sub _ _ | .shr _
  | .subn _ _ | .shl _ | .skipNeReg _ _ | .loadIndex _ | .jumpPlusV0 _ | .rand _ _ | .skipKeyPressed _
  | .skipKeyReleased _ | .loadDelay _ | .waitKey _ | .setDelay _ | .setSound _ | .addIndex _ | .indexToGlyph _
  | .storeBcd _ | .regDump _ | .regLoad _ => true

/-- An image the load accepts: `0x200 + len <= 4096` (20_memory.md R32). -/
def imageFits (image : List Byte) : Bool := Config.progBase + image.length ≤ Config.memSize

end Sys2Proof
end

