-- ==== Sys2Proof/Decode.lean ====
section
/-! DEFINITION. The decoder (30_encoding.md R51, R54, R55, R57, R58), total on any bytes and rejecting by name, and
after it the encoder, written from the same table. The numeric opcodes are those of R57 (log entry 4). -/

namespace Sys2Proof

/-! ## The six fields of R51 -/

/-- `op`, bits 15 to 12. -/
def opOf (w : Word) : BitVec 4 := w.extractLsb' 12 4

/-- `x`, bits 11 to 8. -/
def xOf (w : Word) : Reg := w.extractLsb' 8 4

/-- `y`, bits 7 to 4. -/
def yOf (w : Word) : Reg := w.extractLsb' 4 4

/-- `n`, bits 3 to 0. -/
def nOf (w : Word) : BitVec 4 := w.extractLsb' 0 4

/-- `nn`, bits 7 to 0. -/
def nnOf (w : Word) : Byte := w.extractLsb' 0 8

/-- `nnn`, bits 11 to 0. -/
def nnnOf (w : Word) : Addr := w.extractLsb' 0 12

/-! ## Dispatch -/

/-- Family 0x0 selects on `nn`; bits 11 to 8 take no part (R55). -/
def decodeFamily0 (w : Word) : Option Instr :=
  match nnOf w with
  | 0xE0#8 => some .clearScreen
  | 0xEE#8 => some .ret
  | _ => none

/-- Family 0x8 selects on `n`; `y` is ignored in `shr` and `shl` (R55). -/
def decodeFamily8 (w : Word) : Option Instr :=
  match nOf w with
  | 0x0#4 => some (.loadReg (xOf w) (yOf w))
  | 0x1#4 => some (.orReg (xOf w) (yOf w))
  | 0x2#4 => some (.andReg (xOf w) (yOf w))
  | 0x3#4 => some (.xorReg (xOf w) (yOf w))
  | 0x4#4 => some (.addReg (xOf w) (yOf w))
  | 0x5#4 => some (.sub (xOf w) (yOf w))
  | 0x6#4 => some (.shr (xOf w))
  | 0x7#4 => some (.subn (xOf w) (yOf w))
  | 0xE#4 => some (.shl (xOf w))
  | _ => none

/-- Family 0xE selects on `nn` (R55). -/
def decodeFamilyE (w : Word) : Option Instr :=
  match nnOf w with
  | 0x9E#8 => some (.skipKeyPressed (xOf w))
  | 0xA1#8 => some (.skipKeyReleased (xOf w))
  | _ => none

/-- Family 0xF selects on `nn` (R55). -/
def decodeFamilyF (w : Word) : Option Instr :=
  match nnOf w with
  | 0x07#8 => some (.loadDelay (xOf w))
  | 0x0A#8 => some (.waitKey (xOf w))
  | 0x15#8 => some (.setDelay (xOf w))
  | 0x18#8 => some (.setSound (xOf w))
  | 0x1E#8 => some (.addIndex (xOf w))
  | 0x29#8 => some (.indexToGlyph (xOf w))
  | 0x33#8 => some (.storeBcd (xOf w))
  | 0x55#8 => some (.regDump (xOf w))
  | 0x65#8 => some (.regLoad (xOf w))
  | _ => none

/-- Dispatch on `op` first (R54). `none`: the word is no instruction, the no-op of 40_cycle.md R77. Families 0x5 and
0x9 have no selector: `n` is ignored. The last line is reached by no word: all sixteen families stand above it. -/
def decodeWord (w : Word) : Option Instr :=
  match opOf w with
  | 0x0#4 => decodeFamily0 w
  | 0x1#4 => some (.jump (nnnOf w))
  | 0x2#4 => some (.call (nnnOf w))
  | 0x3#4 => some (.skipEqImm (xOf w) (nnOf w))
  | 0x4#4 => some (.skipNeImm (xOf w) (nnOf w))
  | 0x5#4 => some (.skipEqReg (xOf w) (yOf w))
  | 0x6#4 => some (.loadImm (xOf w) (nnOf w))
  | 0x7#4 => some (.addImm (xOf w) (nnOf w))
  | 0x8#4 => decodeFamily8 w
  | 0x9#4 => some (.skipNeReg (xOf w) (yOf w))
  | 0xA#4 => some (.loadIndex (nnnOf w))
  | 0xB#4 => some (.jumpPlusV0 (nnnOf w))
  | 0xC#4 => some (.rand (xOf w) (nnOf w))
  | 0xD#4 => some (.draw (xOf w) (yOf w) (nOf w).toNat)
  | 0xE#4 => decodeFamilyE w
  | 0xF#4 => decodeFamilyF w
  | _ => none

/-- Why bytes are no instruction: fewer than two of them, or a word outside rows 1 to 34 of R57 (which a cycle
executes as the no-op `nop-undefined`, R58). -/
inductive Undecoded where
  | tooFewBytes
  | undefinedWord (w : Word)
  deriving DecidableEq, Repr

/-- The word of two consecutive bytes, the first one high (20_memory.md R37, 30_encoding.md R50). -/
def wordOfBytes (hi lo : Byte) : Word := hi ++ lo

/-- The decoder on bytes: the instruction and the bytes after it, or the reason there is none. -/
def decode : List Byte → Except Undecoded (Instr × List Byte)
  | hi :: lo :: rest =>
    match decodeWord (wordOfBytes hi lo) with
    | some i => .ok (i, rest)
    | none => .error (.undefinedWord (wordOfBytes hi lo))
  | _ => .error .tooFewBytes

/-- The bytes of a table word as Memory holds them: its high byte at the lower address. Bits from `nbits` up are 0. -/
def tableBytes (nbits w : Nat) : List Byte :=
  [BitVec.ofNat 8 (w % 2 ^ nbits / 256), BitVec.ofNat 8 (w % 2 ^ nbits)]

/-- What the decoder reads from a table word. -/
def decodeTableWord (nbits w : Nat) : Option Instr :=
  match decode (tableBytes nbits w) with
  | .ok (i, _) => some i
  | .error _ => none

/-! ## The encoder: the canonical spelling, ignored bits 0 (R54, R55, R57) -/

/-- Format `NNN` of R52. -/
def encodeNNN (op : BitVec 4) (nnn : Addr) : Word := op ++ nnn

/-- Format `XNN` of R52; with a fixed `nn` also formats `X` and `NONE`. -/
def encodeXNN (op : BitVec 4) (x : Reg) (nn : Byte) : Word := op ++ (x ++ nn)

/-- Formats `XY` and `XYN` of R52. -/
def encodeXYN (op : BitVec 4) (x y : Reg) (n : BitVec 4) : Word := op ++ (x ++ (y ++ n))

/-- The word of an instruction (R57). -/
def encode : Instr → Word
  | .clearScreen => encodeXNN 0x0 0 0xE0
  | .ret => encodeXNN 0x0 0 0xEE
  | .jump nnn => encodeNNN 0x1 nnn
  | .call nnn => encodeNNN 0x2 nnn
  | .skipEqImm x nn => encodeXNN 0x3 x nn
  | .skipNeImm x nn => encodeXNN 0x4 x nn
  | .skipEqReg x y => encodeXYN 0x5 x y 0
  | .loadImm x nn => encodeXNN 0x6 x nn
  | .addImm x nn => encodeXNN 0x7 x nn
  | .loadReg x y => encodeXYN 0x8 x y 0x0
  | .orReg x y => encodeXYN 0x8 x y 0x1
  | .andReg x y => encodeXYN 0x8 x y 0x2
  | .xorReg x y => encodeXYN 0x8 x y 0x3
  | .addReg x y => encodeXYN 0x8 x y 0x4
  | .sub x y => encodeXYN 0x8 x y 0x5
  | .shr x => encodeXYN 0x8 x 0 0x6
  | .subn x y => encodeXYN 0x8 x y 0x7
  | .shl x => encodeXYN 0x8 x 0 0xE
  | .skipNeReg x y => encodeXYN 0x9 x y 0
  | .loadIndex nnn => encodeNNN 0xA nnn
  | .jumpPlusV0 nnn => encodeNNN 0xB nnn
  | .rand x nn => encodeXNN 0xC x nn
  | .draw x y n => encodeXYN 0xD x y (BitVec.ofNat 4 n)
  | .skipKeyPressed x => encodeXNN 0xE x 0x9E
  | .skipKeyReleased x => encodeXNN 0xE x 0xA1
  | .loadDelay x => encodeXNN 0xF x 0x07
  | .waitKey x => encodeXNN 0xF x 0x0A
  | .setDelay x => encodeXNN 0xF x 0x15
  | .setSound x => encodeXNN 0xF x 0x18
  | .addIndex x => encodeXNN 0xF x 0x1E
  | .indexToGlyph x => encodeXNN 0xF x 0x29
  | .storeBcd x => encodeXNN 0xF x 0x33
  | .regDump x => encodeXNN 0xF x 0x55
  | .regLoad x => encodeXNN 0xF x 0x65

/-- The two bytes of an instruction as Memory holds them. -/
def encodeBytes (i : Instr) : List Byte := [(encode i).extractLsb' 8 8, (encode i).extractLsb' 0 8]

end Sys2Proof
end

