-- ==== Sys2Proof/Machine/Flags.lean ====
section
/-! DEFINITION. The flag computations: the byte written to `V[0xF]`, 0x00 or 0x01 (10_state.md R11). -/

namespace Sys2Proof.Machine

/-- A flag stores the byte 0x00 or 0x01. -/
def flagByte (b : Bool) : Byte := if b then 1 else 0

/-- Carry of `add-reg`: the 9-bit sum exceeds 255 (42_alu.md R127). -/
def carryFlag (a b : Byte) : Byte := flagByte (a.toNat + b.toNat > 255)

/-- The flag of `sub` and `subn`: strictly greater, so 0 on equal operands (R128, R130). -/
def greaterFlag (a b : Byte) : Byte := flagByte (a.toNat > b.toNat)

/-- The bit `shr` shifts out (R129). -/
def lowBitFlag (a : Byte) : Byte := a &&& 1

/-- The bit `shl` shifts out, as 0 or 1 (R131). -/
def highBitFlag (a : Byte) : Byte := flagByte (a &&& 0x80 ≠ 0)

/-- Collision of `draw` (44_display.md R152). -/
def collisionFlag (collided : Bool) : Byte := flagByte collided

end Sys2Proof.Machine
end

