-- ==== Sys2Proof/Machine/State.lean ====
section
/-! DEFINITION. The state of the machine (10_state.md) and its value right after reset, as plain data. -/

namespace Sys2Proof

/-- Memory: (address, byte) pairs in the canonical form `Memory.wf` of Machine/Ops.lean. -/
abbrev Memory := List Host.Cell

end Sys2Proof

namespace Sys2Proof.Machine

/-- The four fatal causes of 60_exceptions.md R170, a closed enumeration without codes (D23). An instruction that
raises one takes it by `raise` (Machine/Ops.lean): a next state with `run = faulted cause`, as R171 says. So no step
answers `Outcome.fault`; a fault is a state of this machine. Safe: all other state is then a free value. -/
inductive Fault where
  /-- Raised by `return` on an empty stack (R172). Safe: the spec's own fault. -/
  | stackUnderflow
  /-- Raised by `call` when the stack holds `STACK_DEPTH` entries (R174). Safe: the spec's own fault. -/
  | stackOverflow
  /-- Raised by `draw`, `store-bcd`, `reg-dump`, `reg-load` at an address of 4096 or more (R173). Safe. -/
  | outOfBounds (addr : Nat)
  /-- Raised by the key skips when `V[x] > 0x0F` (R178). Safe: the spec gives the case no value (D11). -/
  | keyIndexOutOfRange (v : Byte)
  deriving DecidableEq, Repr

/-- Why a step has no meaning. -/
inductive Refusal where
  /-- Raised by a refused arm of `exec`: an instruction without a meaning yet. No arm is one. Safe. -/
  | notModelled (mnemonic : String)
  /-- Raised by `Tick` and `Cycle` between a refused load and the next successful `Reset`
  (70_reset_and_hazards.md R190: not defined; 93_implementation_defined.md U22: `refuse`). Safe. -/
  | machineNotStarted
  deriving DecidableEq, Repr

/-- The run state (10_state.md R16). -/
inductive RunState where
  | running
  | awaitingKey (t : Reg)
  | halted
  | faulted (cause : Fault)
  deriving DecidableEq, Repr

/-- The three events of the interface (10_state.md R21). -/
inductive HostEvent where
  | reset (image : List Byte)
  | tick
  | cycle (keys : Keys) (rnd : Byte)
  deriving DecidableEq, Repr

/-- The state. `mem` to `prevKeys` are the tuple of 10_state.md; the fields below them are the model's own (inputs,
the `redraw` output, parameters and the free-value counter, log entries 1, 2, 3, 16, 22). -/
structure State where
  /-- 20_memory.md R30, R31 -/
  mem      : Memory
  /-- 10_state.md R10, R11 -/
  V        : RegFile
  /-- R13 -/
  I        : Word
  /-- R12 -/
  pc       : Word
  /-- R14, the most recent entry last -/
  stack    : List Word
  /-- The delay timer, R15 -/
  DT       : Byte
  /-- The sound timer, R15 -/
  ST       : Byte
  /-- R18 -/
  fb       : Framebuffer
  /-- R16 -/
  run      : RunState
  /-- R19 -/
  prevKeys : Keys
  /-- The parameters of this machine (00_scope.md R7); no step changes them. -/
  par      : Config.Params
  /-- Events the host has issued and the core has not yet taken, oldest first (R21). -/
  inbox    : List HostEvent
  /-- The `keys` input of the latest cycle (R19, R21). -/
  keys     : Keys
  /-- The `rnd` input of the latest cycle (R21). -/
  rnd      : Byte
  /-- The `redraw` output of the latest cycle (40_cycle.md R79). -/
  redraw   : Bool
  /-- False from a refused load to the next successful `Reset` (70_reset_and_hazards.md R190). -/
  started  : Bool
  /-- How many free values have been drawn. -/
  draws    : Nat
  deriving DecidableEq, Repr

/-- The machine right after `Reset` with an empty image (10_state.md R22, 70_reset_and_hazards.md R190): memory lists
nothing, so every byte reads as its reset content. A program is loaded from outside (log entry 25). -/
def State.reset : State :=
  { mem := [], V := Vector.replicate 16 0, I := 0, pc := 0x0200, stack := [], DT := 0, ST := 0,
    fb := Vector.replicate 32 (Vector.replicate 64 false), run := .running, prevKeys := 0,
    par := Config.defaultParams, inbox := [], keys := 0, rnd := 0, redraw := false, started := true, draws := 0 }

end Sys2Proof.Machine
end

