-- ==== Sys2Proof/Machine/Ops.lean ====
section
/-! DEFINITION. The named operations over memory, registers, stack, framebuffer and timers; raising a fault (the only
exception entry this machine has) and, beside it, `Reset`, the only way out of one (60_exceptions.md R171, R180). -/

namespace Sys2Proof

/-! ## Memory -/

/-- What an unlisted address reads as: the reset content, `FONT` in the glyph region and 0 elsewhere
(20_memory.md R31, R32). -/
def Memory.background (font : Font) (a : Nat) : Byte :=
  if h : a < 80 then font[a] else 0

/-- The listed byte at an address, if there is one. -/
def Memory.lookup : Memory → Nat → Option Byte
  | [], _ => none
  | (b, v) :: m, a => if b = a then some v else Memory.lookup m a

/-- The byte at an address: "the byte most recently written there (or the initial content)" (R30). -/
def Memory.read (font : Font) (m : Memory) (a : Nat) : Byte :=
  (Memory.lookup m a).getD (Memory.background font a)

/-- Take an address out of the list. -/
def Memory.remove : Memory → Nat → Memory
  | [], _ => []
  | c :: m, a => if c.1 = a then m else c :: Memory.remove m a

/-- Put a cell into the list at its place, over any cell of the same address. -/
def Memory.put : Memory → Nat → Byte → Memory
  | [], a, v => [(a, v)]
  | c :: m, a, v =>
    if a < c.1 then (a, v) :: c :: m
    else if c.1 = a then (a, v) :: m
    else c :: Memory.put m a v

/-- Write one byte and keep the canonical form: writing the reset content removes the entry. -/
def Memory.write (font : Font) (m : Memory) (a : Nat) (v : Byte) : Memory :=
  if v = Memory.background font a then Memory.remove m a else Memory.put m a v

/-- The canonical form: addresses strictly rising and inside Memory, no entry equal to the reset content. -/
abbrev Memory.wf (font : Font) (m : Memory) : Prop :=
  m.Pairwise (fun c d => c.1 < d.1) ∧ ∀ c ∈ m, c.1 < 4096 ∧ c.2 ≠ Memory.background font c.1

/-- The memory that given cells describe over the reset content; a cell outside Memory describes nothing. -/
def Memory.ofCells (font : Font) : List Host.Cell → Memory
  | [] => []
  | c :: cs => if c.1 < 4096 then Memory.write font (Memory.ofCells font cs) c.1 c.2 else Memory.ofCells font cs

/-- Place bytes at consecutive addresses, the first at `a`. -/
def Memory.place (font : Font) : List Byte → Nat → Memory → Memory
  | [], _, m => m
  | b :: bs, a, m => Memory.place font bs (a + 1) (Memory.write font m a b)

namespace Machine

/-- The model's read of one byte of memory, without the bound check. -/
def State.byteAt (s : State) (a : Nat) : Byte := Memory.read s.par.font s.mem a

/-- `MemRead(addr, 1)` (20_memory.md R34). -/
def readByte (a : Nat) (s : State) : Except Fault Byte :=
  if a ≥ Config.memSize then .error (.outOfBounds a) else .ok (s.byteAt a)

/-- `MemWrite(addr, 1, v)` (R35); a write below 0x050 is like any other (R36). -/
def writeByte (a : Nat) (v : Byte) (s : State) : Except Fault State :=
  if a ≥ Config.memSize then .error (.outOfBounds a)
  else .ok { s with mem := Memory.write s.par.font s.mem a v }

/-- Read `n` bytes at increasing addresses; the first address outside Memory ends it (R39, 43_index_memory.md R140). -/
def readBytes : Nat → Nat → State → Except Fault (List Byte)
  | 0, _, _ => .ok []
  | n + 1, a, s =>
    match readByte a s with
    | .error c => .error c
    | .ok b =>
      match readBytes n (a + 1) s with
      | .error c => .error c
      | .ok bs => .ok (b :: bs)

/-- Write bytes at increasing addresses; the first address outside Memory ends it (R39, 43_index_memory.md R140). -/
def writeBytes : List Byte → Nat → State → Except Fault State
  | [], _, s => .ok s
  | b :: bs, a, s =>
    match writeByte a b s with
    | .error c => .error c
    | .ok s' => writeBytes bs (a + 1) s'

/-! ## General registers -/

/-- A read of `V[x]` (10_state.md R10). -/
def State.reg (s : State) (x : Reg) : Byte := s.V[x.toNat]'x.isLt

/-- `V[x] <- v`. -/
def State.setReg (s : State) (x : Reg) (v : Byte) : State := { s with V := s.V.set x.toNat v x.isLt }

/-- The flag register is `V[0xF]` (10_state.md R11). -/
def State.setFlag (s : State) (f : Byte) : State := s.setReg 0xF f

/-- `V[k] <- b` for the bytes in turn, from register number `k` on; there is no register above 15. -/
def RegFile.load : List Byte → Nat → RegFile → RegFile
  | [], _, v => v
  | b :: bs, k, v => RegFile.load bs (k + 1) (v.setIfInBounds k b)

/-- The registers `V[0]` to `V[x]` in order. -/
def State.regsUpTo (s : State) (x : Reg) : List Byte := s.V.toList.take (x.toNat + 1)

/-! ## Stack (10_state.md R14) -/

/-- `depth(stack)`. -/
def State.depth (s : State) : Nat := s.stack.length

/-- `push(stack, v)` appends; a full stack raises `StackOverflow`, an unbounded one never does
(41_control_flow.md R102). -/
def push (v : Word) (s : State) : Except Fault State :=
  if s.par.stackDepth = some s.depth then .error .stackOverflow
  else .ok { s with stack := s.stack ++ [v] }

/-- `pop(stack)` removes and returns the most recent entry; an empty stack raises `StackUnderflow`
(41_control_flow.md R100). -/
def pop (s : State) : Except Fault (Word × State) :=
  match s.stack.getLast? with
  | none => .error .stackUnderflow
  | some a => .ok (a, { s with stack := s.stack.dropLast })

/-! ## Framebuffer (44_display.md R150) -/

/-- The pixel at a column and a row, each reduced to the grid. -/
def pixel (fb : Framebuffer) (cx cy : Nat) : Bool :=
  (fb[cy % 32]'(Nat.mod_lt _ (by decide)))[cx % 64]'(Nat.mod_lt _ (by decide))

/-- The framebuffer with the pixel at `(cx mod 64, cy mod 32)` exclusive-ored with 1. -/
def togglePixel (cx cy : Nat) (fb : Framebuffer) : Framebuffer :=
  fb.set (cy % 32)
    ((fb[cy % 32]'(Nat.mod_lt _ (by decide))).set (cx % 64) (!pixel fb cx cy) (Nat.mod_lt _ (by decide)))
    (Nat.mod_lt _ (by decide))

/-- `toggle` over a list of (column, row) points in turn; the Bool says whether a toggle found its pixel set. -/
def toggleAll : List (Nat × Nat) → Framebuffer → Framebuffer × Bool
  | [], fb => (fb, false)
  | p :: ps, fb =>
    let hit := pixel fb p.1 p.2
    let (fb', hits) := toggleAll ps (togglePixel p.1 p.2 fb)
    (fb', hit || hits)

/-- `clear()`: every pixel 0. -/
def clearedFb : Framebuffer := Vector.replicate 32 (Vector.replicate 64 false)

/-! ## Timers (40_cycle.md R80) -/

/-- Decrement if nonzero. -/
def countDown (c : Byte) : Byte := if c ≠ 0 then c - 1 else c

/-- The `Tick` event. -/
def tick (s : State) : State := { s with DT := countDown s.DT, ST := countDown s.ST }

/-- `n` ticks at once: each timer loses `n` and stops at 0. -/
def ticks (n : Nat) (s : State) : State :=
  { s with DT := BitVec.ofNat 8 (s.DT.toNat - n), ST := BitVec.ofNat 8 (s.ST.toNat - n) }

/-! ## Raising a fault, and the way out -/

/-- The state with everything `60_exceptions.md` R171 leaves unspecified replaced by a free value. -/
def unspecify (s : State) : State :=
  let u := Config.unspecified s.draws
  { s with
    mem := Memory.ofCells s.par.font u.cells, V := u.V, I := u.I, pc := u.pc, stack := u.stack, DT := u.DT,
    ST := u.ST, fb := u.fb, prevKeys := u.prevKeys, draws := s.draws + 1 }

/-- `raise cause` (R171): the instruction stops, `run <- Faulted(cause)`, all other state is unspecified; `redraw` is 0
(40_cycle.md R79). There is no handler, no saved register and no mode (R180). -/
def raise (cause : Fault) (s : State) : Host.Outcome State Fault Refusal :=
  .next { unspecify s with run := .faulted cause, redraw := false }

/-- End an instruction: with its result, or by raising the fault its operations answered. -/
def complete (s : State) (r : Except Fault State) : Host.Outcome State Fault Refusal :=
  match r with
  | .ok t => .next t
  | .error cause => raise cause s

/-- The state `Reset(image)` builds from an image that fits (70_reset_and_hazards.md R190): nothing survives but the
parameters and what the host still has to deliver. -/
def bootState (image : List Byte) (s : State) : State :=
  { State.reset with
    mem := Memory.place s.par.font image Config.progBase [], par := s.par, inbox := s.inbox, draws := s.draws }

/-- The `Reset(image)` event (R190). A refused load starts no machine: `ProgramTooLarge`, and no state that a claim
may read (20_memory.md R32). DESIGN CHOICE, log entry 22: the spec says only that the machine is not started; that `run`
then holds `running` and `redraw` 0, also when the load met a halted or faulted machine, is the model's, and `started =
false` keeps every event but a `Reset` and the report from reading them. -/
def resetEvent (image : List Byte) (s : State) : State :=
  if imageFits image then bootState image s
  else { unspecify s with run := .running, redraw := false, started := false }

/-! ## Outputs (10_state.md R21, 40_cycle.md R76) -/

/-- What an event reports to the host. -/
inductive Report where
  | continued (redraw : Bool)
  | halted
  | faulted (cause : Fault)
  | programTooLarge
  deriving DecidableEq, Repr

/-- The outcome of the latest cycle (R76), or `ProgramTooLarge` after a refused load. -/
def State.report (s : State) : Report :=
  if s.started then
    match s.run with
    | .halted => .halted
    | .faulted c => .faulted c
    | .running | .awaitingKey _ => .continued s.redraw
  else .programTooLarge

/-- `sound_active`: the sound timer is nonzero (10_state.md R15). -/
def State.soundActive (s : State) : Bool := s.ST ≠ 0

/-- `framebuffer_snapshot()`: the whole grid, read-only (44_display.md R153). -/
def State.snapshot (s : State) : Framebuffer := s.fb

end Machine
end Sys2Proof
end

