-- ==== Sys2Proof/Machine/Alu.lean ====
section
/-! DEFINITION. Register moves, arithmetic and logic (42_alu.md). The assignments of a rule run one after the other,
each reading the registers as the one before left them (R120, D7; log entry 6). -/

namespace Sys2Proof.Machine

/-- `load-imm x,nn` (R121). -/
def execLoadImm (x : Reg) (nn : Byte) (s : State) : Host.Outcome State Fault Refusal :=
  .next (s.setReg x nn)

/-- `add-imm x,nn` (R122): wraps, no flag. -/
def execAddImm (x : Reg) (nn : Byte) (s : State) : Host.Outcome State Fault Refusal :=
  .next (s.setReg x (s.reg x + nn))

/-- `load-reg x,y` (R123). -/
def execLoadReg (x y : Reg) (s : State) : Host.Outcome State Fault Refusal :=
  .next (s.setReg x (s.reg y))

/-- `or x,y` (R124). -/
def execOrReg (x y : Reg) (s : State) : Host.Outcome State Fault Refusal :=
  .next (s.setReg x (s.reg x ||| s.reg y))

/-- `and x,y` (R125). -/
def execAndReg (x y : Reg) (s : State) : Host.Outcome State Fault Refusal :=
  .next (s.setReg x (s.reg x &&& s.reg y))

/-- `xor x,y` (R126). -/
def execXorReg (x y : Reg) (s : State) : Host.Outcome State Fault Refusal :=
  .next (s.setReg x (s.reg x ^^^ s.reg y))

/-- `add-reg x,y` (R127): the sum is formed before the flag is written. -/
def execAddReg (x y : Reg) (s : State) : Host.Outcome State Fault Refusal :=
  .next ((s.setFlag (carryFlag (s.reg x) (s.reg y))).setReg x (s.reg x + s.reg y))

/-- `sub x,y` (R128): the operands are read again after the flag write. -/
def execSub (x y : Reg) (s : State) : Host.Outcome State Fault Refusal :=
  let s1 := s.setFlag (greaterFlag (s.reg x) (s.reg y))
  .next (s1.setReg x (s1.reg x - s1.reg y))

/-- `shr x` (R129). -/
def execShr (x : Reg) (s : State) : Host.Outcome State Fault Refusal :=
  let s1 := s.setFlag (lowBitFlag (s.reg x))
  .next (s1.setReg x (s1.reg x >>> 1))

/-- `subn x,y` (R130). -/
def execSubn (x y : Reg) (s : State) : Host.Outcome State Fault Refusal :=
  let s1 := s.setFlag (greaterFlag (s.reg y) (s.reg x))
  .next (s1.setReg x (s1.reg y - s1.reg x))

/-- `shl x` (R131). -/
def execShl (x : Reg) (s : State) : Host.Outcome State Fault Refusal :=
  let s1 := s.setFlag (highBitFlag (s.reg x))
  .next (s1.setReg x (s1.reg x <<< 1))

/-- `rand x,nn` (R132): `rnd` is this cycle's input. -/
def execRand (x : Reg) (nn : Byte) (s : State) : Host.Outcome State Fault Refusal :=
  .next (s.setReg x (s.rnd &&& nn))

end Sys2Proof.Machine
end

