-- ==== Sys2Proof/Machine/Operands.lean ====
section
/-! DEFINITION. The operand forms: immediates, the effective address, the sprite, the decimal digits, the key lookup and
the skip. -/

namespace Sys2Proof.Machine

/-- `zext_16(nnn)`: a 12-bit address or immediate at register width (30_encoding.md R53). -/
def zextAddr (nnn : Addr) : Word := nnn.setWidth 16

/-- `zext_16` of a byte. -/
def zextByte (b : Byte) : Word := b.setWidth 16

/-- The effective address of byte `k` of a transfer: `I + k` as a natural number, never reduced
(43_index_memory.md R140). -/
def effAddr (s : State) (k : Nat) : Nat := s.I.toNat + k

/-- A skip adds 2 to a `pc` that already stands after the instruction (40_cycle.md R73, 41_control_flow.md R107). -/
def skipIf (c : Bool) (s : State) : State := if c then { s with pc := s.pc + 2 } else s

/-- Bit of a sprite byte for a column 0 to 7: bit 7 is column 0 (44_display.md R152, D26), or bit 0 where the parameter
says so. -/
def spriteBit (msbFirst : Bool) (b : Byte) (col : Nat) : Bool :=
  if msbFirst then b.getLsbD (7 - col) else b.getLsbD col

/-- The points one sprite row toggles, columns increasing. -/
def spriteRow (msbFirst : Bool) (vx cy : Nat) (b : Byte) : List (Nat × Nat) :=
  ((List.range 8).filter (fun col => spriteBit msbFirst b col)).map (fun col => (vx + col, cy))

/-- The points a sprite toggles, rows increasing (44_display.md R152). -/
def spritePoints (msbFirst : Bool) (vx : Nat) : Nat → List Byte → List (Nat × Nat)
  | _, [] => []
  | cy, b :: bs => spriteRow msbFirst vx cy b ++ spritePoints msbFirst vx (cy + 1) bs

/-- The decimal digits of a byte, hundreds first, one a byte (43_index_memory.md R144). -/
def bcdDigits (v : Byte) : List Byte :=
  [BitVec.ofNat 8 (v.toNat / 100), BitVec.ofNat 8 (v.toNat / 10 % 10), BitVec.ofNat 8 (v.toNat % 10)]

/-- The key that `V[x]` names: its state in this cycle's sample, or a fault above 0x0F (45_timers_keypad.md R166). -/
def keyState (v : Byte) (s : State) : Except Fault Bool :=
  if v.toNat > 0x0F then .error (.keyIndexOutOfRange v) else .ok (s.keys.getLsbD v.toNat)

/-- The codes of the keys set in a sample, increasing. -/
def keyCodes (ks : Keys) : List Nat := (List.range 16).filter (fun k => ks.getLsbD k)

/-- The keys down now that were up at the previous sample (40_cycle.md R78). -/
def freshKeys (s : State) : Keys := s.keys &&& ~~~s.prevKeys

/-- One of the codes: the only one, or a free choice among several (R78, D13). -/
def chooseKey (n : Nat) : List Nat → Option Nat
  | [] => none
  | [k] => some k
  | k :: l :: ks => (k :: l :: ks)[Config.freeChoice n % (ks.length + 2)]?

end Sys2Proof.Machine
end

