-- ==== Sys2Proof/Machine/Control.lean ====
section
/-! DEFINITION. Control flow (41_control_flow.md). In every meaning `pc` already holds the address of the instruction
plus 2 (40_cycle.md R73). Targets are absolute and unchecked (R107). -/

namespace Sys2Proof.Machine

/-- `return` (R100). -/
def execRet (s : State) : Host.Outcome State Fault Refusal :=
  complete s (match pop s with
    | .error c => .error c
    | .ok (a, s') => .ok { s' with pc := a })

/-- `jump nnn` (R101). -/
def execJump (nnn : Addr) (s : State) : Host.Outcome State Fault Refusal :=
  .next { s with pc := zextAddr nnn }

/-- `call nnn` (R102): the advanced `pc` is pushed. -/
def execCall (nnn : Addr) (s : State) : Host.Outcome State Fault Refusal :=
  complete s (match push s.pc s with
    | .error c => .error c
    | .ok s' => .ok { s' with pc := zextAddr nnn })

/-- `skip-eq-imm x,nn` (R103). -/
def execSkipEqImm (x : Reg) (nn : Byte) (s : State) : Host.Outcome State Fault Refusal :=
  .next (skipIf (s.reg x == nn) s)

/-- `skip-ne-imm x,nn` (R104). -/
def execSkipNeImm (x : Reg) (nn : Byte) (s : State) : Host.Outcome State Fault Refusal :=
  .next (skipIf (s.reg x != nn) s)

/-- `skip-eq-reg x,y` (R105). -/
def execSkipEqReg (x y : Reg) (s : State) : Host.Outcome State Fault Refusal :=
  .next (skipIf (s.reg x == s.reg y) s)

/-- `skip-ne-reg x,y` (R106). -/
def execSkipNeReg (x y : Reg) (s : State) : Host.Outcome State Fault Refusal :=
  .next (skipIf (s.reg x != s.reg y) s)

/-- `jump-plus-v0 nnn` (R108): the offset is always `V[0]`; the sum, at most 0x10FE, is not reduced. -/
def execJumpPlusV0 (nnn : Addr) (s : State) : Host.Outcome State Fault Refusal :=
  .next { s with pc := zextAddr nnn + zextByte (s.reg 0) }

end Sys2Proof.Machine
end

