-- ==== Sys2Proof/Machine/Display.lean ====
section
/-! DEFINITION. The display instructions (44_display.md). Both mark `redraw` unconditionally (40_cycle.md R79). -/

namespace Sys2Proof.Machine

/-- `clear-screen` (R151). -/
def execClearScreen (s : State) : Host.Outcome State Fault Refusal :=
  .next { s with fb := clearedFb, redraw := true }

/-- `draw x,y,n` (R152): the coordinates are read once before any pixel changes, the flag is written once after the
last row (D8, log entry 7). A byte outside Memory ends it by a fault, after which no pixel may be read (R171), so all
sprite bytes are read before the first toggle. -/
def execDraw (x y : Reg) (n : Nat) (s : State) : Host.Outcome State Fault Refusal :=
  complete s (match readBytes n (effAddr s 0) s with
    | .error c => .error c
    | .ok rows =>
      let d := toggleAll (spritePoints s.par.spriteMsbFirst (s.reg x).toNat (s.reg y).toNat rows) s.fb
      .ok { s.setFlag (collisionFlag d.2) with fb := d.1, redraw := true })

end Sys2Proof.Machine
end

