-- ==== Sys2Proof/Machine/Index.lean ====
section
/-! DEFINITION. The index register and memory transfer (43_index_memory.md). `I` is never modified by a transfer
(R140). -/

namespace Sys2Proof.Machine

/-- `load-index nnn` (R141). -/
def execLoadIndex (nnn : Addr) (s : State) : Host.Outcome State Fault Refusal :=
  .next { s with I := zextAddr nnn }

/-- `add-index x` (R142): modulo 65536, no flag. -/
def execAddIndex (x : Reg) (s : State) : Host.Outcome State Fault Refusal :=
  .next { s with I := s.I + zextByte (s.reg x) }

/-- `index-to-glyph x` (R143): all eight bits of `V[x]` are used. -/
def execIndexToGlyph (x : Reg) (s : State) : Host.Outcome State Fault Refusal :=
  .next { s with I := zextByte (s.reg x) * 5 }

/-- `store-bcd x` (R144). -/
def execStoreBcd (x : Reg) (s : State) : Host.Outcome State Fault Refusal :=
  complete s (writeBytes (bcdDigits (s.reg x)) (effAddr s 0) s)

/-- `reg-dump x` (R145). -/
def execRegDump (x : Reg) (s : State) : Host.Outcome State Fault Refusal :=
  complete s (writeBytes (s.regsUpTo x) (effAddr s 0) s)

/-- `reg-load x` (R146). -/
def execRegLoad (x : Reg) (s : State) : Host.Outcome State Fault Refusal :=
  complete s (match readBytes (x.toNat + 1) (effAddr s 0) s with
    | .error c => .error c
    | .ok bs => .ok { s with V := RegFile.load bs 0 s.V })

end Sys2Proof.Machine
end

