-- ==== Sys2Proof/Machine/TimersKeypad.lean ====
section
/-! DEFINITION. Timers and keypad (45_timers_keypad.md). The key state is this cycle's one sample (R166). -/

namespace Sys2Proof.Machine

/-- `skip-key-pressed x` (R160). -/
def execSkipKeyPressed (x : Reg) (s : State) : Host.Outcome State Fault Refusal :=
  complete s (match keyState (s.reg x) s with
    | .error c => .error c
    | .ok down => .ok (skipIf down s))

/-- `skip-key-released x` (R161). -/
def execSkipKeyReleased (x : Reg) (s : State) : Host.Outcome State Fault Refusal :=
  complete s (match keyState (s.reg x) s with
    | .error c => .error c
    | .ok down => .ok (skipIf (!down) s))

/-- `load-delay x` (R162). -/
def execLoadDelay (x : Reg) (s : State) : Host.Outcome State Fault Refusal :=
  .next (s.setReg x s.DT)

/-- `wait-key x` (R163): keys down now are held, not fresh; the wait itself is `awaitKey` of Machine/Cycle.lean. -/
def execWaitKey (x : Reg) (s : State) : Host.Outcome State Fault Refusal :=
  .next { s with prevKeys := s.keys, run := .awaitingKey x }

/-- `set-delay x` (R164). -/
def execSetDelay (x : Reg) (s : State) : Host.Outcome State Fault Refusal :=
  .next { s with DT := s.reg x }

/-- `set-sound x` (R165). -/
def execSetSound (x : Reg) (s : State) : Host.Outcome State Fault Refusal :=
  .next { s with ST := s.reg x }

end Sys2Proof.Machine
end

