-- ==== Sys2Proof/Machine/Cycle.lean ====
section
/-! DEFINITION. The fetch-decode-execute machine and its events (40_cycle.md). -/

namespace Sys2Proof.Machine

/-- A cycle takes one sample of its inputs and starts with `redraw = 0` (R70, 10_state.md R21). -/
def sampleInputs (keys : Keys) (rnd : Byte) (s : State) : State :=
  { s with keys := keys, rnd := rnd, redraw := false }

/-- The halt test of the fetch: a byte of the instruction lies outside Memory (R72). -/
def fetchOutside (s : State) : Bool := s.pc.toNat + 1 > 0xFFF

/-- The word at `pc`, high byte first, even or odd (R72, 20_memory.md R37, R38). -/
def fetchWord (s : State) : Word := wordOfBytes (s.byteAt s.pc.toNat) (s.byteAt (s.pc.toNat + 1))

/-- `pc <- pc + 2`, before the instruction executes (R73). -/
def advancePc (s : State) : State := { s with pc := s.pc + 2 }

/-- `nop-undefined` (R77): nothing beyond the advanced `pc`. -/
def execNopUndefined (s : State) : Host.Outcome State Fault Refusal := .next s

/-- Decode and execute one word on the state with the advanced `pc` (R74, R75). -/
def executeWord (w : Word) (s : State) : Host.Outcome State Fault Refusal :=
  match decodeWord w with
  | some i => exec i s
  | none => execNopUndefined s

/-- A cycle in `AwaitingKey(t)` (R78): no fetch; a fresh press stores its code and resumes. -/
def awaitKey (t : Reg) (s : State) : State :=
  match chooseKey s.draws (keyCodes (freshKeys s)) with
  | none => { s with prevKeys := s.keys }
  | some k =>
    { s.setReg t (BitVec.ofNat 8 k) with prevKeys := s.keys, run := .running, draws := s.draws + 1 }

/-- The `Cycle(keys, rnd)` event (R70). -/
def cycle (keys : Keys) (rnd : Byte) (s : State) : Host.Outcome State Fault Refusal :=
  let s := sampleInputs keys rnd s
  match s.run with
  | .halted | .faulted _ => .next s
  | .awaitingKey t => .next (awaitKey t s)
  | .running =>
    if fetchOutside s then .next { s with run := .halted }
    else executeWord (fetchWord s) (advancePc s)

/-- One event of the host (10_state.md R21). After a refused load only `Reset` is defined
(70_reset_and_hazards.md R190). -/
def deliver (e : HostEvent) (s : State) : Host.Outcome State Fault Refusal :=
  match e with
  | .reset image => .next (resetEvent image s)
  | .tick => if s.started then .next (tick s) else .refused .machineNotStarted
  | .cycle keys rnd => if s.started then cycle keys rnd s else .refused .machineNotStarted

/-- What happens when no event is pending: the document's own `step`, "`Tick` (zero or more) then `Cycle`" (R80), with
free inputs and any number of ticks (log entries 1, 18). -/
def freeStep (s : State) : Host.Outcome State Fault Refusal :=
  let n := s.draws
  deliver (.cycle (Config.freeKeys n) (Config.freeRnd n)) (ticks (Config.freeTicks n) { s with draws := n + 1 })

/-- Take the oldest pending event, or go on without one. -/
def nextEvent (s : State) : Host.Outcome State Fault Refusal :=
  match s.inbox with
  | e :: rest => deliver e { s with inbox := rest }
  | [] => freeStep s

/-- Whether an event is a cycle. -/
def HostEvent.isCycle : HostEvent → Bool
  | .cycle _ _ => true
  | .reset _ | .tick => false

/-- A state that fetches in its next step: started, running, `pc` inside Memory, no event before the next cycle. What
already holds is left as it is. -/
def fetchReady (s : State) : State :=
  { s with
    started := true, run := .running, pc := if fetchOutside s then 0x0200 else s.pc,
    inbox := s.inbox.dropWhile (fun e => !e.isCycle) }

/-- The state with a table word stored where its next step fetches (log entry 25). -/
def placeFetchWord (s : State) (nbits w : Nat) : State :=
  let r := fetchReady s
  { r with mem := Memory.place r.par.font (tableBytes nbits w) r.pc.toNat r.mem }

end Sys2Proof.Machine
end

