-- ==== Sys2Proof/Machine/Step.lean ====
section
/-! DEFINITION. One step of the machine: one event. -/

namespace Sys2Proof.Machine

/-- One step: the oldest pending host event, or, when none is pending, ticks and a cycle with free inputs. -/
def step (s : State) : Host.Outcome State Fault Refusal := nextEvent s

/-- The state with an instruction stored where `step` fetches its next one, so that the very next step runs it. -/
def State.withFetchWord (s : State) (nbits w : Nat) : State := placeFetchWord s nbits w

end Sys2Proof.Machine
end

