-- ==== Sys2Proof/Safety.lean ====
section
/-! DEFINITION. The terms of the claims: ended runs, the invariant, which faults an instruction raises, the pixels a
sprite covers, and what "unchanged" means. -/

namespace Sys2Proof.Machine

/-- A run has ended, normally or by a fault (40_cycle.md R81). -/
def State.ended (s : State) : Bool :=
  match s.run with
  | .halted | .faulted _ => true
  | .running | .awaitingKey _ => false

/-- The machine is faulted (60_exceptions.md R171). -/
def State.isFaulted (s : State) : Bool :=
  match s.run with
  | .faulted _ => true
  | .running | .awaitingKey _ | .halted => false

/-- The bounds of 10_state.md R23 (a), (b), (d), and why a halted machine halted (40_cycle.md R72). -/
structure InBounds (s : State) : Prop where
  pc_le    : s.pc.toNat ≤ 0x10FE
  entries  : ∀ a ∈ s.stack, 0x0002 ≤ a.toNat ∧ a.toNat ≤ 0x1000
  depth_le : ∀ d, s.par.stackDepth = some d → s.depth ≤ d
  halted   : s.run = .halted → 0x0FFF ≤ s.pc.toNat

/-- The invariant: memory is always canonical; the bounds hold while the machine is started and not faulted. -/
structure Inv (s : State) : Prop where
  mem    : Memory.wf s.par.font s.mem
  bounds : s.started = true → s.isFaulted = false → InBounds s

/-- A transfer of `n` bytes at `I` that leaves Memory, and the lowest of its addresses outside (60_exceptions.md R173,
R175). -/
def transferFault (s : State) (n : Nat) : Option Fault :=
  if 1 ≤ n ∧ 4096 ≤ s.I.toNat + n - 1 then some (.outOfBounds (max s.I.toNat 4096)) else none

/-- The fault that `V[x]` as a key index raises (60_exceptions.md R178). -/
def keyFault (v : Byte) : Option Fault :=
  if 0x0F < v.toNat then some (.keyIndexOutOfRange v) else none

/-- The table of 60_exceptions.md R170: the fault an instruction raises in a state, if any. -/
def faultOf (i : Instr) (s : State) : Option Fault :=
  match i with
  | .ret => if s.stack = [] then some .stackUnderflow else none
  | .call _ => if s.par.stackDepth = some s.stack.length then some .stackOverflow else none
  | .draw _ _ n => transferFault s n
  | .storeBcd _ => transferFault s 3
  | .regDump x | .regLoad x => transferFault s (x.toNat + 1)
  | .skipKeyPressed x | .skipKeyReleased x => keyFault (s.reg x)
  | .clearScreen | .jump _ | .skipEqImm _ _ | .skipNeImm _ _ | .skipEqReg _ _ | .loadImm _ _ | .addImm _ _
  | .loadReg _ _ | .orReg _ _ | .andReg _ _ | .xorReg _ _ | .addReg _ _ | .sub _ _ | .shr _ | .subn _ _ | .shl _
  | .skipNeReg _ _ | .loadIndex _ | .jumpPlusV0 _ | .rand _ _ | .loadDelay _ | .waitKey _ | .setDelay _
  | .setSound _ | .addIndex _ | .indexToGlyph _ => none

/-- A set bit of the sprite of `draw x,y,n` falls on the pixel, with per-pixel wrap (44_display.md R152). -/
def Covered (x y : Reg) (n : Nat) (s : State) (col row : Nat) : Prop :=
  ∃ r < n, ∃ c < 8,
    (s.byteAt (s.I.toNat + r)).getLsbD (if s.par.spriteMsbFirst then 7 - c else c) = true ∧
    ((s.reg x).toNat + c) % 64 = col ∧ ((s.reg y).toNat + r) % 32 = row

/-- Nothing but registers in `rs` changed: every other register, every byte of memory and every other field of the
state, `pc` among them, is as before. -/
structure RegistersOnly (rs : List Reg) (s t : State) : Prop where
  regs : ∀ r, r ∉ rs → t.reg r = s.reg r
  mem  : ∀ a, t.byteAt a = s.byteAt a
  rest : t = { s with V := t.V }

/-- Nothing but the `n` bytes of memory from `base` on changed. -/
structure BytesOnly (base n : Nat) (s t : State) : Prop where
  mem  : ∀ a, a < base ∨ base + n ≤ a → t.byteAt a = s.byteAt a
  rest : t = { s with mem := t.mem }

/-- An instruction ends by taking a fault: the cause, `redraw` 0, and the parameters, the pending events, this cycle's
inputs and the started mark as before; the rest is unspecified (60_exceptions.md R171). -/
def TakesFault (i : Instr) (s : State) (c : Fault) : Prop :=
  ∃ t, exec i s = .next t ∧ t.run = .faulted c ∧ t.redraw = false ∧ t.par = s.par ∧ t.inbox = s.inbox ∧
    t.keys = s.keys ∧ t.rnd = s.rnd ∧ t.started = s.started

/-- An instruction writes `v` to `V[x]` and does nothing else. -/
def WritesReg (i : Instr) (s : State) (x : Reg) (v : Byte) : Prop :=
  ∃ t, exec i s = .next t ∧ t.reg x = v ∧ RegistersOnly [x] s t

/-- A skip: it adds 2 to `pc` when `c` holds and does nothing else. -/
def SkipsWhen (i : Instr) (s : State) (c : Prop) : Prop :=
  ∃ t, exec i s = .next t ∧ (c → t = { s with pc := s.pc + 2 }) ∧ (¬c → t = s)

/-- Every word with these fixed bits decodes to the instruction its fields spell (30_encoding.md R57). -/
def Encodes (mask fixed : Word) (build : Word → Instr) : Prop :=
  ∀ w : Word, w &&& mask = fixed → decodeWord w = some (build w)

end Sys2Proof.Machine
end

