-- ==== Sys2Proof/Certificates/Slice0/Obligations.lean ====
section
/-! DEFINITION. The statements for the provers. A docstring names the rule of spec/ a statement formalises, or the log
entry where it rests on a choice of the spec's writer or of the model. -/

open Sys2Proof Sys2Proof.Machine

/-! ## Encoding -/

/-- 30_encoding.md R51: the six fields by mask and shift, how they overlap, and where they lie in the two bytes. -/
def Obligations.FieldsOfAWordAreMaskAndShift : Prop :=
  (∀ w : Word,
    (opOf w).toNat = ((w >>> 12) &&& 0xF#16).toNat ∧ (xOf w).toNat = ((w >>> 8) &&& 0xF#16).toNat ∧
    (yOf w).toNat = ((w >>> 4) &&& 0xF#16).toNat ∧ (nOf w).toNat = (w &&& 0xF#16).toNat ∧
    (nnOf w).toNat = (w &&& 0xFF#16).toNat ∧ (nnnOf w).toNat = (w &&& 0xFFF#16).toNat ∧
    nnnOf w = xOf w ++ yOf w ++ nOf w ∧ nnOf w = yOf w ++ nOf w) ∧
  ∀ hi lo : Byte,
    opOf (wordOfBytes hi lo) = hi.extractLsb' 4 4 ∧ xOf (wordOfBytes hi lo) = hi.extractLsb' 0 4 ∧
    nnOf (wordOfBytes hi lo) = lo ∧ yOf (wordOfBytes hi lo) = lo.extractLsb' 4 4 ∧
    nOf (wordOfBytes hi lo) = lo.extractLsb' 0 4

/-- Twelve words of the decode table of 95_test_vectors.md 2.1, the word 0xA2F0 of its section 2.4 (the example of
43_index_memory.md R141), and the bytes 12 34 of the byte-order vector (20_memory.md R37). The numbers are general
knowledge by the spec's mark (G1, log entry 4); that ignored bits are ignored is the spec's choice (D9, log entry 5). -/
def Obligations.SampleWordsDecodeAsListed : Prop :=
  decodeWord 0x00E0 = some .clearScreen ∧ decodeWord 0x05E0 = some .clearScreen ∧ decodeWord 0x00EE = some .ret ∧
  decodeWord 0x1ABC = some (.jump 0xABC) ∧ decodeWord 0x512F = some (.skipEqReg 1 2) ∧
  decodeWord 0x8014 = some (.addReg 0 1) ∧ decodeWord 0x83A6 = some (.shr 3) ∧ decodeWord 0xA2F0 = some (.loadIndex 0x2F0) ∧
  decodeWord 0xD125 = some (.draw 1 2 5) ∧ decodeWord 0xE29E = some (.skipKeyPressed 2) ∧
  decodeWord 0xF165 = some (.regLoad 1) ∧ decodeWord 0x8128 = none ∧ decodeWord 0x0000 = none ∧
  decode [0x12, 0x34] = .ok (.jump 0x234, [])

/-- The opcode map (30_encoding.md R57) row by row. The numbers are general knowledge (G1, log entry 4), the ignored
bits the spec's choice (D9, log entry 5). -/
def Obligations.EveryTableRowDecodesToItsInstruction : Prop :=
  Encodes 0xF0FF 0x00E0 (fun _ => .clearScreen) ∧ Encodes 0xF0FF 0x00EE (fun _ => .ret) ∧
  Encodes 0xF000 0x1000 (fun w => .jump (nnnOf w)) ∧ Encodes 0xF000 0x2000 (fun w => .call (nnnOf w)) ∧
  Encodes 0xF000 0x3000 (fun w => .skipEqImm (xOf w) (nnOf w)) ∧
  Encodes 0xF000 0x4000 (fun w => .skipNeImm (xOf w) (nnOf w)) ∧
  Encodes 0xF000 0x5000 (fun w => .skipEqReg (xOf w) (yOf w)) ∧
  Encodes 0xF000 0x6000 (fun w => .loadImm (xOf w) (nnOf w)) ∧
  Encodes 0xF000 0x7000 (fun w => .addImm (xOf w) (nnOf w)) ∧
  Encodes 0xF00F 0x8000 (fun w => .loadReg (xOf w) (yOf w)) ∧
  Encodes 0xF00F 0x8001 (fun w => .orReg (xOf w) (yOf w)) ∧
  Encodes 0xF00F 0x8002 (fun w => .andReg (xOf w) (yOf w)) ∧
  Encodes 0xF00F 0x8003 (fun w => .xorReg (xOf w) (yOf w)) ∧
  Encodes 0xF00F 0x8004 (fun w => .addReg (xOf w) (yOf w)) ∧
  Encodes 0xF00F 0x8005 (fun w => .sub (xOf w) (yOf w)) ∧
  Encodes 0xF00F 0x8006 (fun w => .shr (xOf w)) ∧
  Encodes 0xF00F 0x8007 (fun w => .subn (xOf w) (yOf w)) ∧
  Encodes 0xF00F 0x800E (fun w => .shl (xOf w)) ∧
  Encodes 0xF000 0x9000 (fun w => .skipNeReg (xOf w) (yOf w)) ∧
  Encodes 0xF000 0xA000 (fun w => .loadIndex (nnnOf w)) ∧
  Encodes 0xF000 0xB000 (fun w => .jumpPlusV0 (nnnOf w)) ∧
  Encodes 0xF000 0xC000 (fun w => .rand (xOf w) (nnOf w)) ∧
  Encodes 0xF000 0xD000 (fun w => .draw (xOf w) (yOf w) (nOf w).toNat) ∧
  Encodes 0xF0FF 0xE09E (fun w => .skipKeyPressed (xOf w)) ∧
  Encodes 0xF0FF 0xE0A1 (fun w => .skipKeyReleased (xOf w)) ∧
  Encodes 0xF0FF 0xF007 (fun w => .loadDelay (xOf w)) ∧ Encodes 0xF0FF 0xF00A (fun w => .waitKey (xOf w)) ∧
  Encodes 0xF0FF 0xF015 (fun w => .setDelay (xOf w)) ∧ Encodes 0xF0FF 0xF018 (fun w => .setSound (xOf w)) ∧
  Encodes 0xF0FF 0xF01E (fun w => .addIndex (xOf w)) ∧ Encodes 0xF0FF 0xF029 (fun w => .indexToGlyph (xOf w)) ∧
  Encodes 0xF0FF 0xF033 (fun w => .storeBcd (xOf w)) ∧ Encodes 0xF0FF 0xF055 (fun w => .regDump (xOf w)) ∧
  Encodes 0xF0FF 0xF065 (fun w => .regLoad (xOf w))

/-- The undefined words, family by family (30_encoding.md R58). It rests on G1 and D9 (log entries 4, 5). -/
def Obligations.UndefinedWordsAreExactlyThoseListed : Prop :=
  ∀ w : Word, decodeWord w = none ↔
    (opOf w = 0x0 ∧ nnOf w ∉ [0xE0, 0xEE]) ∨
    (opOf w = 0x8 ∧ nOf w ∈ [0x8, 0x9, 0xA, 0xB, 0xC, 0xD, 0xF]) ∨
    (opOf w = 0xE ∧ nnOf w ∉ [0x9E, 0xA1]) ∨
    (opOf w = 0xF ∧ nnOf w ∉ [0x07, 0x0A, 0x15, 0x18, 0x1E, 0x29, 0x33, 0x55, 0x65])

/-- Whatever the decoder gives meets the check of WellFormed.lean (30_encoding.md R53). -/
def Obligations.DecodedInstructionsAreWellFormed : Prop :=
  ∀ (bytes rest : List Byte) (i : Instr), decode bytes = .ok (i, rest) → i.wellFormed = true

/-- Decoding the encoding of a well-formed instruction gives it back, from its word and from its bytes in memory order. -/
def Obligations.DecodeOfEncodeIsTheInstruction : Prop :=
  ∀ (i : Instr) (rest : List Byte), i.wellFormed = true →
    decodeWord (encode i) = some i ∧ decode (encodeBytes i ++ rest) = .ok (i, rest)

/-! ## The step and its events -/

/-- A pending cycle fetches the two bytes at `pc`, advances `pc` by 2 and runs the decoded instruction
(40_cycle.md R72, R73, R75). That the event stands in a list of the state is the model's choice (log entry 1). -/
def Obligations.StepRunsTheDecodedInstruction : Prop :=
  ∀ (s : State) (k : Keys) (r : Byte) (rest : List HostEvent) (i : Instr),
    s.inbox = .cycle k r :: rest → s.started = true → s.run = .running → s.pc.toNat ≤ 0xFFE →
    decode [s.byteAt s.pc.toNat, s.byteAt (s.pc.toNat + 1)] = .ok (i, []) →
    step s = exec i { s with inbox := rest, keys := k, rnd := r, redraw := false, pc := s.pc + 2 }

/-- With no event pending some number of ticks falls before a cycle whose inputs are free (40_cycle.md R80; the model's
choice, log entries 1 and 18). The step is the one a pending cycle with those inputs takes after those ticks; then, case
by case: an instruction, an undefined word, a fetch outside Memory (that 0xFFF itself halts is D3, log entry 10), a wait
(D12, D13, log entries 15, 16), an ended run (D25, log entry 24). -/
def Obligations.StepWithoutAnEventTicksAndRuns : Prop :=
  ∀ s : State, s.inbox = [] → s.started = true →
    ∃ (n : Nat) (k : Keys) (r : Byte) (u : State),
      u = { s with
        DT := BitVec.ofNat 8 (s.DT.toNat - n), ST := BitVec.ofNat 8 (s.ST.toNat - n), keys := k, rnd := r,
        redraw := false, draws := s.draws + 1 } ∧
      step s = step { u with inbox := [.cycle k r] } ∧
      (∀ i, s.run = .running → s.pc.toNat ≤ 0xFFE →
        decode [s.byteAt s.pc.toNat, s.byteAt (s.pc.toNat + 1)] = .ok (i, []) →
        step s = exec i { u with pc := s.pc + 2 }) ∧
      (s.run = .running → s.pc.toNat ≤ 0xFFE →
        decodeWord (wordOfBytes (s.byteAt s.pc.toNat) (s.byteAt (s.pc.toNat + 1))) = none →
        step s = .next { u with pc := s.pc + 2 }) ∧
      (s.run = .running → 0xFFF ≤ s.pc.toNat → step s = .next { u with run := .halted }) ∧
      (∀ x, s.run = .awaitingKey x → k &&& ~~~s.prevKeys = 0 → step s = .next { u with prevKeys := k }) ∧
      (∀ x, s.run = .awaitingKey x → k &&& ~~~s.prevKeys ≠ 0 →
        ∃ t, ∃ code < 16, step s = .next t ∧ (k &&& ~~~s.prevKeys).getLsbD code = true ∧
          t.reg x = BitVec.ofNat 8 code ∧ (∀ y, y ≠ x → t.reg y = s.reg y) ∧
          t = { u with V := t.V, prevKeys := k, run := .running, draws := s.draws + 2 }) ∧
      (s.ended = true → step s = .next u)

/-- 40_cycle.md R77: a word that is no instruction advances `pc` and changes nothing else; `redraw` is 0. The word
0x0000 of zero-filled memory is one. -/
def Obligations.UndefinedWordOnlyAdvancesPc : Prop :=
  decodeWord 0x0000 = none ∧
  ∀ (s : State) (k : Keys) (r : Byte) (rest : List HostEvent),
    s.inbox = .cycle k r :: rest → s.started = true → s.run = .running → s.pc.toNat ≤ 0xFFE →
    decodeWord (wordOfBytes (s.byteAt s.pc.toNat) (s.byteAt (s.pc.toNat + 1))) = none →
    step s = .next { s with inbox := rest, keys := k, rnd := r, redraw := false, pc := s.pc + 2 }

/-- The halt test of the fetch (40_cycle.md R72); that 0xFFF itself halts is the spec's choice (D3, log entry 10). -/
def Obligations.FetchOutsideMemoryHalts : Prop :=
  ∀ (s : State) (k : Keys) (r : Byte) (rest : List HostEvent),
    s.inbox = .cycle k r :: rest → s.started = true → s.run = .running → 0xFFF ≤ s.pc.toNat →
    step s = .next { s with inbox := rest, keys := k, rnd := r, redraw := false, run := .halted }

/-- A cycle in `Halted` or `Faulted` changes nothing and reports the same outcome (40_cycle.md R71, the spec's choice
D25; that the input fields take the sample is the model's, log entry 24). -/
def Obligations.EndedMachineIgnoresCycles : Prop :=
  ∀ (s : State) (k : Keys) (r : Byte) (rest : List HostEvent),
    s.inbox = .cycle k r :: rest → s.started = true → s.ended = true →
    ∃ t, step s = .next t ∧ t = { s with inbox := rest, keys := k, rnd := r, redraw := false } ∧
      t.report = s.report

/-- Only a `Reset` leaves `Faulted` (60_exceptions.md R171, 40_cycle.md R71 with D25): every other step, with or without
a pending event, stays in it with the same cause. -/
def Obligations.OnlyResetLeavesAFault : Prop :=
  ∀ (s : State) (c : Fault),
    s.run = .faulted c → s.started = true → (∀ image rest, s.inbox ≠ .reset image :: rest) →
    ∃ t, step s = .next t ∧ t.run = .faulted c ∧ t.started = true ∧ t.report = .faulted c

/-- Only a `Reset` leaves `Halted` (40_cycle.md R71 with D25): every other step, with or without a pending event, stays
in it and reports it, and changes nothing but the timers (R81, D15; log entry 18) and the model's own interface fields
(log entries 1, 2, 16, 24). -/
def Obligations.OnlyResetLeavesAHaltedRun : Prop :=
  ∀ s : State, s.run = .halted → s.started = true → (∀ image rest, s.inbox ≠ .reset image :: rest) →
    ∃ t, step s = .next t ∧ t.run = .halted ∧ t.started = true ∧ t.report = .halted ∧
      t.DT.toNat ≤ s.DT.toNat ∧ t.ST.toNat ≤ s.ST.toNat ∧
      t = { s with
        DT := t.DT, ST := t.ST, inbox := s.inbox.tail, keys := t.keys, rnd := t.rnd, redraw := t.redraw,
        draws := t.draws }

/-- A `Tick` event (40_cycle.md R80) in every run state of a started machine (the spec's choice D15, log entry 18). -/
def Obligations.TickCountsBothTimersDown : Prop :=
  ∀ (s : State) (rest : List HostEvent),
    s.inbox = .tick :: rest → s.started = true →
    step s = .next { s with
      inbox := rest, DT := if s.DT = 0 then 0 else s.DT - 1, ST := if s.ST = 0 then 0 else s.ST - 1 }

/-- As many ticks as are pending take that much off each timer and stop at 0 (40_cycle.md R80): what `load-delay` may
rely on (45_timers_keypad.md R162). -/
def Obligations.PendingTicksAddUpAndClamp : Prop :=
  ∀ (n : Nat) (s : State) (rest : List HostEvent),
    s.inbox = List.replicate n HostEvent.tick ++ rest → s.started = true →
    Host.Core.run core n s = .next { s with
      inbox := rest, DT := BitVec.ofNat 8 (s.DT.toNat - n), ST := BitVec.ofNat 8 (s.ST.toNat - n) }

/-- 20_memory.md R32: what Memory holds after a load, and that a refused load starts no machine. That every event but a
`Reset` is then refused by name is the model's choice (R190 and U22 say only "not defined" and "refuse"; log entry
22). -/
def Obligations.ResetLoadsTheImageOrRefusesIt : Prop :=
  ∀ (s : State) (image : List Byte) (rest : List HostEvent), s.inbox = .reset image :: rest →
    (image.length ≤ 3584 →
      ∃ t, step s = .next t ∧ t.started = true ∧ t.report ≠ .programTooLarge ∧
        (∀ d r : Nat, ∀ hd : d < 16, ∀ hr : r < 5, t.byteAt (d * 5 + r) = s.par.font[d * 5 + r]) ∧
        (∀ i : Nat, ∀ hi : i < image.length, t.byteAt (0x200 + i) = image[i]) ∧
        (∀ a : Nat, 80 ≤ a → a < 0x200 ∨ 0x200 + image.length ≤ a → t.byteAt a = 0)) ∧
    (3584 < image.length →
      ∃ t, step s = .next t ∧ t.report = .programTooLarge ∧
        ∀ e : HostEvent, (∀ image', e ≠ .reset image') → deliver e t = .refused .machineNotStarted)

/-- A `Reset` in any run state rebuilds everything, Memory too (70_reset_and_hazards.md R190, the spec's choices D12 and
D20); the last two lines name the model's own fields (log entries 1, 2, 3, 16, 22). -/
def Obligations.ResetRebuildsTheWholeState : Prop :=
  ∀ (s : State) (image : List Byte) (rest : List HostEvent),
    s.inbox = .reset image :: rest → image.length ≤ 3584 →
    ∃ t, step s = .next t ∧
      (∀ a : Nat, ∀ h : a < 80, t.byteAt a = s.par.font[a]) ∧
      (∀ i : Nat, ∀ hi : i < image.length, t.byteAt (0x200 + i) = image[i]) ∧
      (∀ a : Nat, 80 ≤ a → a < 0x200 ∨ 0x200 + image.length ≤ a → t.byteAt a = 0) ∧
      (∀ r, t.reg r = 0) ∧ t.I = 0 ∧ t.pc = 0x0200 ∧ t.stack = [] ∧ t.DT = 0 ∧ t.ST = 0 ∧
      (∀ col row, pixel t.fb col row = false) ∧ t.run = .running ∧ t.prevKeys = 0 ∧
      t.keys = 0 ∧ t.rnd = 0 ∧ t.redraw = false ∧
      t.par = s.par ∧ t.inbox = rest ∧ t.started = true ∧ t.draws = s.draws

/-- The reset values of 10_state.md R22 in `State.reset`, the machine after `Reset` of an empty image (log entry 25);
`prevKeys` is the spec's choice (D12). -/
def Obligations.ResetStateHoldsTheResetValues : Prop :=
  (∀ r, State.reset.reg r = 0) ∧ State.reset.I = 0 ∧ State.reset.pc = 0x0200 ∧ State.reset.stack = [] ∧
  State.reset.DT = 0 ∧ State.reset.ST = 0 ∧ (∀ col row, pixel State.reset.fb col row = false) ∧
  State.reset.run = .running ∧ State.reset.prevKeys = 0 ∧
  (∀ a : Nat, ∀ h : a < 80, State.reset.byteAt a = State.reset.par.font[a]) ∧
  (∀ a : Nat, 80 ≤ a → State.reset.byteAt a = 0)

/-- A cycle in `AwaitingKey(t)` (40_cycle.md R78): a fresh press stores the code of one fresh key, whichever, and
resumes; without one only `prev_keys` follows. The edge rule is D12 (log entry 15), the free choice D13 (log entry 16). -/
def Obligations.WaitingMachineResumesOnAFreshPress : Prop :=
  ∀ (s : State) (x : Reg) (k : Keys) (r : Byte) (rest : List HostEvent),
    s.inbox = .cycle k r :: rest → s.started = true → s.run = .awaitingKey x →
    (k &&& ~~~s.prevKeys ≠ 0 →
      ∃ t, ∃ code < 16, step s = .next t ∧ (k &&& ~~~s.prevKeys).getLsbD code = true ∧
        t.reg x = BitVec.ofNat 8 code ∧ (∀ y, y ≠ x → t.reg y = s.reg y) ∧
        t = { s with
          inbox := rest, keys := k, rnd := r, redraw := false, V := t.V, prevKeys := k, run := .running,
          draws := s.draws + 1 }) ∧
    (k &&& ~~~s.prevKeys = 0 →
      step s = .next { s with inbox := rest, keys := k, rnd := r, redraw := false, prevKeys := k })

/-! ## The whole machine -/

/-- The invariant of Safety.lean: memory stays canonical, and the bounds of 10_state.md R23 hold while the machine is
started and not faulted. That a halt may stand at 0xFFF itself is the spec's choice (D3, log entry 10). -/
def Obligations.EveryStepKeepsTheInvariant : Prop :=
  ∀ s t : State, Inv s → step s = .next t → Inv t

/-- The invariant holds at reset. -/
def Obligations.ResetMeetsTheInvariant : Prop := Inv State.reset

/-- A started machine always has a next state, and no step answers a fault: a fault is a state here. After a refused
load every step but a `Reset` is refused by name (70_reset_and_hazards.md R190; log entry 22). -/
def Obligations.StartedMachineAlwaysHasANextState : Prop :=
  ∀ s : State,
    (s.started = true → ∃ t, step s = .next t) ∧
    (s.started = false → (∀ image rest, s.inbox ≠ .reset image :: rest) → step s = .refused .machineNotStarted)

/-- The fault table of 60_exceptions.md R170 for all 34 instructions (D11, D16, D23; log entries 14, 19): an instruction
takes the fault the table gives it, with the lowest bad address, and where it gives none the instruction completes and
the machine runs on or waits for a key. -/
def Obligations.InstructionsFaultExactlyAsTheTableSays : Prop :=
  ∀ (i : Instr) (s : State), s.run = .running →
    (∀ c, faultOf i s = some c → TakesFault i s c) ∧
    (faultOf i s = none →
      ∃ t, exec i s = .next t ∧ (t.run = .running ∨ ∃ x, i = .waitKey x ∧ t.run = .awaitingKey x))

/-- 60_exceptions.md R172: `StackUnderflow` is raised by `return` on the empty stack and by nothing else. -/
def Obligations.UnderflowComesOnlyFromReturnOnEmptyStack : Prop :=
  (∀ s : State, s.stack = [] → TakesFault .ret s .stackUnderflow) ∧
  ∀ (s t : State), s.isFaulted = false → step s = .next t → t.run = .faulted .stackUnderflow →
    s.stack = [] ∧ decodeWord (fetchWord s) = some .ret

/-- 60_exceptions.md R174: `StackOverflow` is raised by `call` on a full bounded stack; an unbounded one never has it. -/
def Obligations.OverflowComesOnlyFromCallOnFullStack : Prop :=
  (∀ (s : State) (nnn : Addr) (d : Nat), s.par.stackDepth = some d → s.stack.length = d →
    TakesFault (.call nnn) s .stackOverflow) ∧
  ∀ (s t : State), s.isFaulted = false → step s = .next t → t.run = .faulted .stackOverflow →
    s.par.stackDepth = some s.stack.length ∧ ∃ nnn, decodeWord (fetchWord s) = some (.call nnn)

/-- `redraw` is 1 exactly when the instruction is `clear-screen` or `draw` and does not fault (40_cycle.md R79, the
spec's choice D17; log entry 20). -/
def Obligations.RedrawExactlyForDisplayInstructions : Prop :=
  ∀ (i : Instr) (s : State), s.redraw = false → s.run = .running →
    ∃ t, exec i s = .next t ∧
      (t.redraw = true ↔ (i = .clearScreen ∨ ∃ x y n, i = .draw x y n) ∧ faultOf i s = none)

/-- The parameters of a machine never change (00_scope.md R7; log entry 3). -/
def Obligations.NoStepChangesTheParameters : Prop :=
  ∀ s t : State, step s = .next t → t.par = s.par

/-- `rnd` is ignored by every instruction but `rand` (10_state.md R21): with another random byte the instruction does
the same. -/
def Obligations.RandomByteReachesOnlyRand : Prop :=
  ∀ (i : Instr) (s t : State) (r : Byte), (∀ x nn, i ≠ .rand x nn) → exec i s = .next t →
    exec i { s with rnd := r } = .next { t with rnd := r }

/-- Memory is written by `store-bcd` and `reg-dump` only (10_state.md R17): any other instruction that does not fault
leaves every byte as it was. -/
def Obligations.OnlyStoresChangeMemory : Prop :=
  ∀ (i : Instr) (s : State), faultOf i s = none → (∀ x, i ≠ .storeBcd x) → (∀ x, i ≠ .regDump x) →
    ∃ t, exec i s = .next t ∧ ∀ a, t.byteAt a = s.byteAt a

/-- Pixels change through `clear-screen` and `draw` only (10_state.md R18). -/
def Obligations.OnlyDisplayInstructionsChangePixels : Prop :=
  ∀ (i : Instr) (s : State), faultOf i s = none → i ≠ .clearScreen → (∀ x y n, i ≠ .draw x y n) →
    ∃ t, exec i s = .next t ∧ t.fb = s.fb

/-- `I` is written by `load-index`, `add-index` and `index-to-glyph` only (10_state.md R13). -/
def Obligations.OnlyIndexInstructionsChangeI : Prop :=
  ∀ (i : Instr) (s : State), faultOf i s = none → (∀ nnn, i ≠ .loadIndex nnn) → (∀ x, i ≠ .addIndex x) →
    (∀ x, i ≠ .indexToGlyph x) → ∃ t, exec i s = .next t ∧ t.I = s.I

/-- The stack is used by `call` and `return` only (10_state.md R14). -/
def Obligations.OnlyCallAndReturnChangeTheStack : Prop :=
  ∀ (i : Instr) (s : State), faultOf i s = none → (∀ nnn, i ≠ .call nnn) → i ≠ .ret →
    ∃ t, exec i s = .next t ∧ t.stack = s.stack

/-- Only control transfers and skips touch the advanced `pc`; a skip leaves it or adds 2 (10_state.md R12). -/
def Obligations.OnlyControlTransfersChangePc : Prop :=
  ∀ (i : Instr) (s : State), faultOf i s = none → i ≠ .ret → (∀ nnn, i ≠ .jump nnn) → (∀ nnn, i ≠ .call nnn) →
    (∀ nnn, i ≠ .jumpPlusV0 nnn) →
    ∃ t, exec i s = .next t ∧ (t.pc = s.pc ∨ t.pc = s.pc + 2 ∧
      ((∃ x nn, i = .skipEqImm x nn) ∨ (∃ x nn, i = .skipNeImm x nn) ∨ (∃ x y, i = .skipEqReg x y) ∨
       (∃ x y, i = .skipNeReg x y) ∨ (∃ x, i = .skipKeyPressed x) ∨ (∃ x, i = .skipKeyReleased x)))

/-- Six instructions write `V[0xF]` as a side effect; any other changes it only where its own `x` is 0xF
(10_state.md R11). -/
def Obligations.OnlySixInstructionsWriteTheFlag : Prop :=
  ∀ (i : Instr) (s : State), faultOf i s = none →
    (∀ x y, i ≠ .addReg x y) → (∀ x y, i ≠ .sub x y) → (∀ x y, i ≠ .subn x y) → (∀ x, i ≠ .shr x) →
    (∀ x, i ≠ .shl x) → (∀ x y n, i ≠ .draw x y n) →
    (∀ nn, i ≠ .loadImm 0xF nn) → (∀ nn, i ≠ .addImm 0xF nn) → (∀ y, i ≠ .loadReg 0xF y) → (∀ y, i ≠ .orReg 0xF y) →
    (∀ y, i ≠ .andReg 0xF y) → (∀ y, i ≠ .xorReg 0xF y) → (∀ nn, i ≠ .rand 0xF nn) → i ≠ .loadDelay 0xF →
    i ≠ .regLoad 0xF →
    ∃ t, exec i s = .next t ∧ t.reg 0xF = s.reg 0xF

/-! ## Control flow -/

/-- 41_control_flow.md R101. -/
def Obligations.JumpAssignsItsTarget : Prop :=
  Encodes 0xF000 0x1000 (fun w => .jump (nnnOf w)) ∧
  ∀ (nnn : Addr) (s : State), ∃ t, exec (.jump nnn) s = .next t ∧ t.pc.toNat = nnn.toNat ∧ t = { s with pc := t.pc }

/-- `return` (41_control_flow.md R100): the most recent entry goes to `pc`, the others stay; an empty stack is a fault. -/
def Obligations.ReturnPopsTheMostRecentEntry : Prop :=
  ∀ s : State,
    (∀ (older : List Word) (a : Word), s.stack = older ++ [a] →
      exec .ret s = .next { s with pc := a, stack := older }) ∧
    (s.stack = [] → TakesFault .ret s .stackUnderflow)

/-- `call` (41_control_flow.md R102): the advanced `pc` is pushed and the target assigned unless the stack is full. -/
def Obligations.CallPushesTheAdvancedPc : Prop :=
  ∀ (nnn : Addr) (s : State),
    (s.par.stackDepth ≠ some s.stack.length →
      ∃ t, exec (.call nnn) s = .next t ∧ t.pc.toNat = nnn.toNat ∧ t.stack = s.stack ++ [s.pc] ∧
        t = { s with pc := t.pc, stack := t.stack }) ∧
    (s.par.stackDepth = some s.stack.length → TakesFault (.call nnn) s .stackOverflow)

/-- `call` and the matching `return` bring `pc` and the stack back (41_control_flow.md R102, 95_test_vectors.md S5),
whatever ran between as long as it left the stack as the call did. -/
def Obligations.ReturnUndoesCall : Prop :=
  ∀ (nnn : Addr) (s u : State), s.par.stackDepth ≠ some s.stack.length →
    ∃ t, exec (.call nnn) s = .next t ∧
      (u.stack = t.stack → exec .ret u = .next { u with pc := s.pc, stack := s.stack })

/-- The four compare-and-skip instructions (41_control_flow.md R103 to R106). -/
def Obligations.CompareSkipsAddTwoToPc : Prop :=
  ∀ (x y : Reg) (nn : Byte) (s : State),
    SkipsWhen (.skipEqImm x nn) s (s.reg x = nn) ∧ SkipsWhen (.skipNeImm x nn) s (s.reg x ≠ nn) ∧
    SkipsWhen (.skipEqReg x y) s (s.reg x = s.reg y) ∧ SkipsWhen (.skipNeReg x y) s (s.reg x ≠ s.reg y)

/-- `jump-plus-v0` (41_control_flow.md R108): the sum with `V[0]`, never reduced. -/
def Obligations.JumpPlusV0AddsWithoutReduction : Prop :=
  ∀ (nnn : Addr) (s : State), ∃ t, exec (.jumpPlusV0 nnn) s = .next t ∧
    t.pc.toNat = nnn.toNat + (s.reg 0).toNat ∧ t.pc.toNat ≤ 0x10FE ∧ t = { s with pc := t.pc }

/-! ## Registers, arithmetic and logic -/

/-- 42_alu.md R121. -/
def Obligations.LoadImmWritesItsImmediate : Prop :=
  Encodes 0xF000 0x6000 (fun w => .loadImm (xOf w) (nnOf w)) ∧
  ∀ (x : Reg) (nn : Byte) (s : State), WritesReg (.loadImm x nn) s x nn

/-- Moves, logic, immediate add and random byte (42_alu.md R122 to R126, R132): the destination and nothing else, no
flag. -/
def Obligations.MovesAndLogicWriteOnlyTheirDestination : Prop :=
  ∀ (x y : Reg) (nn : Byte) (s : State),
    WritesReg (.addImm x nn) s x (BitVec.ofNat 8 (((s.reg x).toNat + nn.toNat) % 256)) ∧
    WritesReg (.loadReg x y) s x (s.reg y) ∧ WritesReg (.orReg x y) s x (s.reg x ||| s.reg y) ∧
    WritesReg (.andReg x y) s x (s.reg x &&& s.reg y) ∧ WritesReg (.xorReg x y) s x (s.reg x ^^^ s.reg y) ∧
    WritesReg (.rand x nn) s x (s.rnd &&& nn)

/-- `add-reg` for all operands (42_alu.md R127). Where `x` is 0xF the result is written last and stays (R120, the
spec's choice D7, log entry 6). -/
def Obligations.AddRegWritesSumAndCarry : Prop :=
  ∀ (x y : Reg) (s : State), ∃ t, exec (.addReg x y) s = .next t ∧ RegistersOnly [x, 0xF] s t ∧
    (t.reg x).toNat = ((s.reg x).toNat + (s.reg y).toNat) % 256 ∧
    (x ≠ 0xF → t.reg 0xF = if (s.reg x).toNat + (s.reg y).toNat > 255 then 1 else 0)

/-- `sub` and `subn` for all operands (42_alu.md R128, R130): the flag is the strict comparison, and the subtraction
reads the registers after the flag write (R120, the spec's choice D7, log entry 6). -/
def Obligations.SubtractionsWriteNoBorrowFlagFirst : Prop :=
  ∀ (x y : Reg) (s : State),
    (∃ t, exec (.sub x y) s = .next t ∧ RegistersOnly [x, 0xF] s t ∧ ∃ f : Byte,
      f = (if (s.reg x).toNat > (s.reg y).toNat then 1 else 0) ∧ (x ≠ 0xF → t.reg 0xF = f) ∧
      t.reg x = (if x = 0xF then f else s.reg x) - (if y = 0xF then f else s.reg y)) ∧
    (∃ t, exec (.subn x y) s = .next t ∧ RegistersOnly [x, 0xF] s t ∧ ∃ f : Byte,
      f = (if (s.reg y).toNat > (s.reg x).toNat then 1 else 0) ∧ (x ≠ 0xF → t.reg 0xF = f) ∧
      t.reg x = (if y = 0xF then f else s.reg y) - (if x = 0xF then f else s.reg x))

/-- `shr` and `shl` for all operands (42_alu.md R129, R131): the flag is the bit shifted out, as 0 or 1; on register
0xF the shifted flag stays (R120, the spec's choice D7, log entry 6). -/
def Obligations.ShiftsWriteTheBitShiftedOut : Prop :=
  ∀ (x : Reg) (s : State),
    (∃ t, exec (.shr x) s = .next t ∧ RegistersOnly [x, 0xF] s t ∧
      (x ≠ 0xF → (t.reg 0xF).toNat = (s.reg x).toNat % 2 ∧ (t.reg x).toNat = (s.reg x).toNat / 2) ∧
      (x = 0xF → t.reg 0xF = 0)) ∧
    (∃ t, exec (.shl x) s = .next t ∧ RegistersOnly [x, 0xF] s t ∧
      (x ≠ 0xF → (t.reg 0xF).toNat = (s.reg x).toNat / 128 ∧ (t.reg x).toNat = 2 * (s.reg x).toNat % 256) ∧
      (x = 0xF → (t.reg 0xF).toNat = 2 * ((s.reg x).toNat / 128)))

/-! ## Index register and memory -/

/-- The three writers of `I` (43_index_memory.md R141 to R143). The wrap of `add-index` (D5, log entry 12) and the
unmasked product of `index-to-glyph` (D22, log entry 23) are the spec's choices. -/
def Obligations.IndexInstructionsWriteOnlyI : Prop :=
  ∀ (x : Reg) (nnn : Addr) (s : State),
    (∃ t, exec (.loadIndex nnn) s = .next t ∧ t.I.toNat = nnn.toNat ∧ t = { s with I := t.I }) ∧
    (∃ t, exec (.addIndex x) s = .next t ∧ t.I.toNat = (s.I.toNat + (s.reg x).toNat) % 65536 ∧ t = { s with I := t.I }) ∧
    (∃ t, exec (.indexToGlyph x) s = .next t ∧ t.I.toNat = (s.reg x).toNat * 5 ∧ t = { s with I := t.I })

/-- `store-bcd` (43_index_memory.md R144): three decimal digits at `I`, nothing else; `I` and the registers keep. -/
def Obligations.StoreBcdWritesThreeDigits : Prop :=
  ∀ (x : Reg) (s : State), Memory.wf s.par.font s.mem → s.I.toNat ≤ 0xFFD →
    ∃ t, exec (.storeBcd x) s = .next t ∧ BytesOnly (effAddr s 0) 3 s t ∧
      (t.byteAt (effAddr s 0)).toNat ≤ 2 ∧ (t.byteAt (effAddr s 1)).toNat ≤ 9 ∧ (t.byteAt (effAddr s 2)).toNat ≤ 9 ∧
      100 * (t.byteAt (effAddr s 0)).toNat + 10 * (t.byteAt (effAddr s 1)).toNat + (t.byteAt (effAddr s 2)).toNat
        = (s.reg x).toNat

/-- `reg-dump` (43_index_memory.md R145): `V[0]` to `V[x]` at `I`, nothing else. -/
def Obligations.RegDumpWritesTheRegistersInOrder : Prop :=
  ∀ (x : Reg) (s : State), Memory.wf s.par.font s.mem → s.I.toNat + x.toNat ≤ 0xFFF →
    ∃ t, exec (.regDump x) s = .next t ∧ BytesOnly (effAddr s 0) (x.toNat + 1) s t ∧
      ∀ r : Reg, r ≤ x → t.byteAt (effAddr s r.toNat) = s.reg r

/-- `reg-load` (43_index_memory.md R146): `V[0]` to `V[x]` from `I`, the other registers and everything else keep. -/
def Obligations.RegLoadReadsTheRegistersInOrder : Prop :=
  ∀ (x : Reg) (s : State), s.I.toNat + x.toNat ≤ 0xFFF →
    ∃ t, exec (.regLoad x) s = .next t ∧ (∀ r : Reg, r ≤ x → t.reg r = s.byteAt (effAddr s r.toNat)) ∧
      (∀ r : Reg, x < r → t.reg r = s.reg r) ∧ (∀ a, t.byteAt a = s.byteAt a) ∧ t = { s with V := t.V }

/-- `MemWrite` (20_memory.md R35) in a canonical memory: a bad address is the fault, a good one changes its byte only;
the four transfers and no other instruction raise the fault, and a fetch halts instead. -/
def Obligations.MemWriteChangesOneByteOrFaults : Prop :=
  (∀ (a : Nat) (v : Byte) (s : State), 4096 ≤ a → writeByte a v s = .error (.outOfBounds a)) ∧
  (∀ (a : Nat) (v : Byte) (s : State), Memory.wf s.par.font s.mem → a < 4096 →
    ∃ t, writeByte a v s = .ok t ∧ t.byteAt a = v ∧ (∀ b, b ≠ a → t.byteAt b = s.byteAt b) ∧
      t = { s with mem := t.mem }) ∧
  (∀ (s t : State) (a : Nat), s.isFaulted = false → step s = .next t → t.run = .faulted (.outOfBounds a) →
    s.pc.toNat ≤ 0xFFE ∧ ∃ i, decodeWord (fetchWord s) = some i ∧
      ((∃ x y n, i = .draw x y n) ∨ (∃ x, i = .storeBcd x) ∨ (∃ x, i = .regDump x) ∨ ∃ x, i = .regLoad x))

/-- Instruction-fetch coherence (20_memory.md R42): what a `reg-dump` over the next instruction stores is the word the
next fetch reads. -/
def Obligations.StoreIsSeenByTheNextFetch : Prop :=
  ∀ (x : Reg) (s : State), Memory.wf s.par.font s.mem → 1 ≤ x → s.I = s.pc → s.I.toNat + x.toNat ≤ 0xFFF →
    ∃ t, exec (.regDump x) s = .next t ∧ fetchWord t = wordOfBytes (s.reg 0) (s.reg 1)

/-! ## Display -/

/-- 44_display.md R150: the two primitives, on every grid point. -/
def Obligations.TogglePixelFlipsOneReducedPoint : Prop :=
  (∀ cx cy, pixel clearedFb cx cy = false) ∧
  ∀ (fb : Framebuffer) (cx cy : Nat),
    (∀ dx dy, pixel (togglePixel cx cy fb) dx dy =
      if dx % 64 = cx % 64 ∧ dy % 32 = cy % 32 then !pixel fb dx dy else pixel fb dx dy) ∧
    (toggleAll [(cx, cy)] fb).2 = pixel fb cx cy

/-- `clear-screen` (44_display.md R151): every pixel 0, `redraw` 1, nothing else. -/
def Obligations.ClearScreenClearsEveryPixel : Prop :=
  ∀ s : State, ∃ t, exec .clearScreen s = .next t ∧ (∀ col row, pixel t.fb col row = false) ∧ t.redraw = true ∧
    t = { s with fb := t.fb, redraw := t.redraw }

/-- `draw` for every operand (44_display.md R152): the covered pixels flip and no other, the flag is the collision. The
bit order is the parameter of D26 (log entry 8); coordinates read first, flag written last is D8 (log entry 7). -/
def Obligations.DrawXorsTheSpriteAndReportsCollision : Prop :=
  ∀ (x y : Reg) (n : Nat) (s : State), n ≤ 15 → n = 0 ∨ s.I.toNat + n ≤ 4096 →
    ∃ t, exec (.draw x y n) s = .next t ∧
      (∀ col < 64, ∀ row < 32, Covered x y n s col row → pixel t.fb col row = !pixel s.fb col row) ∧
      (∀ col < 64, ∀ row < 32, ¬Covered x y n s col row → pixel t.fb col row = pixel s.fb col row) ∧
      ((∃ col < 64, ∃ row < 32, Covered x y n s col row ∧ pixel s.fb col row = true) → t.reg 0xF = 1) ∧
      ((∀ col < 64, ∀ row < 32, Covered x y n s col row → pixel s.fb col row = false) → t.reg 0xF = 0) ∧
      (∀ r, r ≠ 0xF → t.reg r = s.reg r) ∧ (∀ a, t.byteAt a = s.byteAt a) ∧ t.redraw = true ∧
      t = { s with V := t.V, fb := t.fb, redraw := t.redraw }

/-- Drawing the same sprite twice at the same place gives the framebuffer back (44_display.md R152, 95_test_vectors.md
S3). With 0xF as a coordinate the first draw moves the second one, so that form is the statement above only. -/
def Obligations.DrawTwiceRestoresTheFramebuffer : Prop :=
  ∀ (x y : Reg) (n : Nat) (s : State), x ≠ 0xF → y ≠ 0xF → n = 0 ∨ s.I.toNat + n ≤ 4096 →
    ∃ t u, exec (.draw x y n) s = .next t ∧ exec (.draw x y n) t = .next u ∧ u.fb = s.fb

/-! ## Timers and keypad -/

/-- 10_state.md R15: the two timers, who writes and reads them, and what they drive. -/
def Obligations.TimersHaveOnlyTheirThreeInstructions : Prop :=
  (∀ (x : Reg) (s : State), exec (.setDelay x) s = .next { s with DT := s.reg x }) ∧
  (∀ (x : Reg) (s : State), exec (.setSound x) s = .next { s with ST := s.reg x }) ∧
  (∀ (x : Reg) (s : State), WritesReg (.loadDelay x) s x s.DT) ∧
  (∀ (i : Instr) (s : State), faultOf i s = none → (∀ x, i ≠ .setDelay x) →
    ∃ t, exec i s = .next t ∧ t.DT = s.DT) ∧
  (∀ (i : Instr) (s : State), faultOf i s = none → (∀ x, i ≠ .setSound x) →
    ∃ t, exec i s = .next t ∧ t.ST = s.ST) ∧
  (∀ (i : Instr) (s : State) (v : Byte),
    ∃ t t', exec i s = .next t ∧ exec i { s with ST := v } = .next t' ∧ t' = { t with ST := t'.ST }) ∧
  (∀ (i : Instr) (s : State) (v : Byte), (∀ x, i ≠ .loadDelay x) →
    ∃ t t', exec i s = .next t ∧ exec i { s with DT := v } = .next t' ∧ t' = { t with DT := t'.DT }) ∧
  (∀ s : State, (tick s).DT.toNat = s.DT.toNat - 1 ∧ (tick s).ST.toNat = s.ST.toNat - 1 ∧
    tick s = { s with DT := (tick s).DT, ST := (tick s).ST }) ∧
  (∀ s : State, s.soundActive = true ↔ s.ST ≠ 0) ∧ State.reset.DT = 0 ∧ State.reset.ST = 0

/-- The key skips (45_timers_keypad.md R160, R161): the level of the key `V[x]` names in this cycle's sample; above
0x0F a fault (R166, the spec's choice D11, log entry 14). -/
def Obligations.KeySkipsFollowTheKeyLevel : Prop :=
  ∀ (x : Reg) (s : State),
    ((s.reg x).toNat ≤ 0x0F →
      SkipsWhen (.skipKeyPressed x) s (s.keys.getLsbD (s.reg x).toNat = true) ∧
      SkipsWhen (.skipKeyReleased x) s (s.keys.getLsbD (s.reg x).toNat = false)) ∧
    (0x0F < (s.reg x).toNat →
      TakesFault (.skipKeyPressed x) s (.keyIndexOutOfRange (s.reg x)) ∧
      TakesFault (.skipKeyReleased x) s (.keyIndexOutOfRange (s.reg x)))

/-- `wait-key` (45_timers_keypad.md R163): the machine waits for its register and takes this cycle's keys as held, `pc`
and `V[x]` keep; and a key held since then does not end the wait: a cycle with the same keys leaves the machine waiting
(40_cycle.md R78). The edge rule is D12 (log entry 15). -/
def Obligations.WaitKeySuspendsUntilAFreshPress : Prop :=
  ∀ (x : Reg) (s : State),
    ∃ t, exec (.waitKey x) s = .next t ∧ t = { s with prevKeys := s.keys, run := .awaitingKey x } ∧
      (s.started = true → ∀ r : Byte, deliver (.cycle s.keys r) t = .next { t with rnd := r, redraw := false })
end

