-- ==== Sys2Proof/Laws/Decode.lean ====
section
/-! SUPPORT. Decoding: the fields of an encoded word, and what fixed bits under a mask say of the fields. -/

namespace Sys2Proof

/-! ## The fields of an encoded word -/

@[simp] theorem opOf_encodeNNN (op : BitVec 4) (nnn : Addr) : opOf (encodeNNN op nnn) = op := by
  unfold opOf encodeNNN
  apply BitVec.eq_of_getLsbD_eq; intro i hi
  simp only [BitVec.getLsbD_extractLsb', BitVec.getLsbD_append]
  simp [hi]

@[simp] theorem nnnOf_encodeNNN (op : BitVec 4) (nnn : Addr) : nnnOf (encodeNNN op nnn) = nnn := by
  unfold nnnOf encodeNNN
  apply BitVec.eq_of_getLsbD_eq; intro i hi
  simp only [BitVec.getLsbD_extractLsb', BitVec.getLsbD_append]
  simp [hi]

@[simp] theorem opOf_encodeXNN (op : BitVec 4) (x : Reg) (nn : Byte) : opOf (encodeXNN op x nn) = op := by
  unfold opOf encodeXNN
  apply BitVec.eq_of_getLsbD_eq; intro i hi
  simp only [BitVec.getLsbD_extractLsb', BitVec.getLsbD_append]
  simp [hi]

@[simp] theorem xOf_encodeXNN (op : BitVec 4) (x : Reg) (nn : Byte) : xOf (encodeXNN op x nn) = x := by
  unfold xOf encodeXNN
  apply BitVec.eq_of_getLsbD_eq; intro i hi
  simp only [BitVec.getLsbD_extractLsb', BitVec.getLsbD_append]
  have h1 : 8 + i < 12 := by omega
  simp [hi, h1]

@[simp] theorem nnOf_encodeXNN (op : BitVec 4) (x : Reg) (nn : Byte) : nnOf (encodeXNN op x nn) = nn := by
  unfold nnOf encodeXNN
  apply BitVec.eq_of_getLsbD_eq; intro i hi
  simp only [BitVec.getLsbD_extractLsb', BitVec.getLsbD_append]
  have h1 : i < 12 := by omega
  simp [hi, h1]

@[simp] theorem opOf_encodeXYN (op : BitVec 4) (x y : Reg) (n : BitVec 4) : opOf (encodeXYN op x y n) = op := by
  unfold opOf encodeXYN
  apply BitVec.eq_of_getLsbD_eq; intro i hi
  simp only [BitVec.getLsbD_extractLsb', BitVec.getLsbD_append]
  simp [hi]

@[simp] theorem xOf_encodeXYN (op : BitVec 4) (x y : Reg) (n : BitVec 4) : xOf (encodeXYN op x y n) = x := by
  unfold xOf encodeXYN
  apply BitVec.eq_of_getLsbD_eq; intro i hi
  simp only [BitVec.getLsbD_extractLsb', BitVec.getLsbD_append]
  have h1 : 8 + i < 12 := by omega
  simp [hi, h1]

@[simp] theorem yOf_encodeXYN (op : BitVec 4) (x y : Reg) (n : BitVec 4) : yOf (encodeXYN op x y n) = y := by
  unfold yOf encodeXYN
  apply BitVec.eq_of_getLsbD_eq; intro i hi
  simp only [BitVec.getLsbD_extractLsb', BitVec.getLsbD_append]
  have h1 : 4 + i < 12 := by omega
  have h2 : 4 + i < 8 := by omega
  simp [hi, h1, h2]

@[simp] theorem nOf_encodeXYN (op : BitVec 4) (x y : Reg) (n : BitVec 4) : nOf (encodeXYN op x y n) = n := by
  unfold nOf encodeXYN
  apply BitVec.eq_of_getLsbD_eq; intro i hi
  simp only [BitVec.getLsbD_extractLsb', BitVec.getLsbD_append]
  have h1 : i < 12 := by omega
  have h2 : i < 8 := by omega
  simp [hi, h1, h2]

/-- The two bytes of an instruction make its word again. -/
theorem wordOfBytes_split (w : Word) : wordOfBytes (w.extractLsb' 8 8) (w.extractLsb' 0 8) = w := by
  unfold wordOfBytes
  apply BitVec.eq_of_getLsbD_eq; intro i hi
  simp only [BitVec.getLsbD_extractLsb', BitVec.getLsbD_append]
  by_cases h : i < 8
  · simp [h]
  · have h1 : i - 8 < 8 := by omega
    have h2 : 8 + (i - 8) = i := by omega
    simp [h, h1, h2]

theorem decode_pair (hi lo : Byte) (rest : List Byte) :
    decode (hi :: lo :: rest) =
      match decodeWord (wordOfBytes hi lo) with
      | some i => .ok (i, rest)
      | none => .error (.undefinedWord (wordOfBytes hi lo)) := rfl

/-- The decoder on two bytes gives an instruction exactly when the word decodes to it. -/
theorem decode_pair_ok (hi lo : Byte) (i : Instr) :
    decode [hi, lo] = .ok (i, []) ↔ decodeWord (wordOfBytes hi lo) = some i := by
  rw [decode_pair]
  cases decodeWord (wordOfBytes hi lo) <;> simp

end Sys2Proof
end

