-- ==== Sys2Proof/Laws/State.lean ====
section
/-! SUPPORT. One lemma per field per named update of the state, true by rfl: later proofs never unfold an update. -/

namespace Sys2Proof.Machine

/-! ## setReg -/

@[simp] theorem setReg_mem (s : State) (x : Reg) (v : Byte) : (s.setReg x v).mem = s.mem := rfl
@[simp] theorem setReg_V (s : State) (x : Reg) (v : Byte) : (s.setReg x v).V = s.V.set x.toNat v x.isLt := rfl
@[simp] theorem setReg_I (s : State) (x : Reg) (v : Byte) : (s.setReg x v).I = s.I := rfl
@[simp] theorem setReg_pc (s : State) (x : Reg) (v : Byte) : (s.setReg x v).pc = s.pc := rfl
@[simp] theorem setReg_stack (s : State) (x : Reg) (v : Byte) : (s.setReg x v).stack = s.stack := rfl
@[simp] theorem setReg_DT (s : State) (x : Reg) (v : Byte) : (s.setReg x v).DT = s.DT := rfl
@[simp] theorem setReg_ST (s : State) (x : Reg) (v : Byte) : (s.setReg x v).ST = s.ST := rfl
@[simp] theorem setReg_fb (s : State) (x : Reg) (v : Byte) : (s.setReg x v).fb = s.fb := rfl
@[simp] theorem setReg_run (s : State) (x : Reg) (v : Byte) : (s.setReg x v).run = s.run := rfl
@[simp] theorem setReg_prevKeys (s : State) (x : Reg) (v : Byte) : (s.setReg x v).prevKeys = s.prevKeys := rfl
@[simp] theorem setReg_par (s : State) (x : Reg) (v : Byte) : (s.setReg x v).par = s.par := rfl
@[simp] theorem setReg_inbox (s : State) (x : Reg) (v : Byte) : (s.setReg x v).inbox = s.inbox := rfl
@[simp] theorem setReg_keys (s : State) (x : Reg) (v : Byte) : (s.setReg x v).keys = s.keys := rfl
@[simp] theorem setReg_rnd (s : State) (x : Reg) (v : Byte) : (s.setReg x v).rnd = s.rnd := rfl
@[simp] theorem setReg_redraw (s : State) (x : Reg) (v : Byte) : (s.setReg x v).redraw = s.redraw := rfl
@[simp] theorem setReg_started (s : State) (x : Reg) (v : Byte) : (s.setReg x v).started = s.started := rfl
@[simp] theorem setReg_draws (s : State) (x : Reg) (v : Byte) : (s.setReg x v).draws = s.draws := rfl

/-! ## setFlag -/

@[simp] theorem setFlag_mem (s : State) (f : Byte) : (s.setFlag f).mem = s.mem := rfl
@[simp] theorem setFlag_V (s : State) (f : Byte) : (s.setFlag f).V = s.V.set 15 f (by decide) := rfl
@[simp] theorem setFlag_I (s : State) (f : Byte) : (s.setFlag f).I = s.I := rfl
@[simp] theorem setFlag_pc (s : State) (f : Byte) : (s.setFlag f).pc = s.pc := rfl
@[simp] theorem setFlag_stack (s : State) (f : Byte) : (s.setFlag f).stack = s.stack := rfl
@[simp] theorem setFlag_DT (s : State) (f : Byte) : (s.setFlag f).DT = s.DT := rfl
@[simp] theorem setFlag_ST (s : State) (f : Byte) : (s.setFlag f).ST = s.ST := rfl
@[simp] theorem setFlag_fb (s : State) (f : Byte) : (s.setFlag f).fb = s.fb := rfl
@[simp] theorem setFlag_run (s : State) (f : Byte) : (s.setFlag f).run = s.run := rfl
@[simp] theorem setFlag_prevKeys (s : State) (f : Byte) : (s.setFlag f).prevKeys = s.prevKeys := rfl
@[simp] theorem setFlag_par (s : State) (f : Byte) : (s.setFlag f).par = s.par := rfl
@[simp] theorem setFlag_inbox (s : State) (f : Byte) : (s.setFlag f).inbox = s.inbox := rfl
@[simp] theorem setFlag_keys (s : State) (f : Byte) : (s.setFlag f).keys = s.keys := rfl
@[simp] theorem setFlag_rnd (s : State) (f : Byte) : (s.setFlag f).rnd = s.rnd := rfl
@[simp] theorem setFlag_redraw (s : State) (f : Byte) : (s.setFlag f).redraw = s.redraw := rfl
@[simp] theorem setFlag_started (s : State) (f : Byte) : (s.setFlag f).started = s.started := rfl
@[simp] theorem setFlag_draws (s : State) (f : Byte) : (s.setFlag f).draws = s.draws := rfl

/-! ## advancePc -/

@[simp] theorem advancePc_mem (s : State) : (advancePc s).mem = s.mem := rfl
@[simp] theorem advancePc_V (s : State) : (advancePc s).V = s.V := rfl
@[simp] theorem advancePc_I (s : State) : (advancePc s).I = s.I := rfl
@[simp] theorem advancePc_pc (s : State) : (advancePc s).pc = s.pc + 2 := rfl
@[simp] theorem advancePc_stack (s : State) : (advancePc s).stack = s.stack := rfl
@[simp] theorem advancePc_DT (s : State) : (advancePc s).DT = s.DT := rfl
@[simp] theorem advancePc_ST (s : State) : (advancePc s).ST = s.ST := rfl
@[simp] theorem advancePc_fb (s : State) : (advancePc s).fb = s.fb := rfl
@[simp] theorem advancePc_run (s : State) : (advancePc s).run = s.run := rfl
@[simp] theorem advancePc_prevKeys (s : State) : (advancePc s).prevKeys = s.prevKeys := rfl
@[simp] theorem advancePc_par (s : State) : (advancePc s).par = s.par := rfl
@[simp] theorem advancePc_inbox (s : State) : (advancePc s).inbox = s.inbox := rfl
@[simp] theorem advancePc_keys (s : State) : (advancePc s).keys = s.keys := rfl
@[simp] theorem advancePc_rnd (s : State) : (advancePc s).rnd = s.rnd := rfl
@[simp] theorem advancePc_redraw (s : State) : (advancePc s).redraw = s.redraw := rfl
@[simp] theorem advancePc_started (s : State) : (advancePc s).started = s.started := rfl
@[simp] theorem advancePc_draws (s : State) : (advancePc s).draws = s.draws := rfl

/-! ## sampleInputs -/

@[simp] theorem sampleInputs_mem (k : Keys) (r : Byte) (s : State) : (sampleInputs k r s).mem = s.mem := rfl
@[simp] theorem sampleInputs_V (k : Keys) (r : Byte) (s : State) : (sampleInputs k r s).V = s.V := rfl
@[simp] theorem sampleInputs_I (k : Keys) (r : Byte) (s : State) : (sampleInputs k r s).I = s.I := rfl
@[simp] theorem sampleInputs_pc (k : Keys) (r : Byte) (s : State) : (sampleInputs k r s).pc = s.pc := rfl
@[simp] theorem sampleInputs_stack (k : Keys) (r : Byte) (s : State) : (sampleInputs k r s).stack = s.stack := rfl
@[simp] theorem sampleInputs_DT (k : Keys) (r : Byte) (s : State) : (sampleInputs k r s).DT = s.DT := rfl
@[simp] theorem sampleInputs_ST (k : Keys) (r : Byte) (s : State) : (sampleInputs k r s).ST = s.ST := rfl
@[simp] theorem sampleInputs_fb (k : Keys) (r : Byte) (s : State) : (sampleInputs k r s).fb = s.fb := rfl
@[simp] theorem sampleInputs_run (k : Keys) (r : Byte) (s : State) : (sampleInputs k r s).run = s.run := rfl
@[simp] theorem sampleInputs_prevKeys (k : Keys) (r : Byte) (s : State) : (sampleInputs k r s).prevKeys = s.prevKeys := rfl
@[simp] theorem sampleInputs_par (k : Keys) (r : Byte) (s : State) : (sampleInputs k r s).par = s.par := rfl
@[simp] theorem sampleInputs_inbox (k : Keys) (r : Byte) (s : State) : (sampleInputs k r s).inbox = s.inbox := rfl
@[simp] theorem sampleInputs_keys (k : Keys) (r : Byte) (s : State) : (sampleInputs k r s).keys = k := rfl
@[simp] theorem sampleInputs_rnd (k : Keys) (r : Byte) (s : State) : (sampleInputs k r s).rnd = r := rfl
@[simp] theorem sampleInputs_redraw (k : Keys) (r : Byte) (s : State) : (sampleInputs k r s).redraw = false := rfl
@[simp] theorem sampleInputs_started (k : Keys) (r : Byte) (s : State) : (sampleInputs k r s).started = s.started := rfl
@[simp] theorem sampleInputs_draws (k : Keys) (r : Byte) (s : State) : (sampleInputs k r s).draws = s.draws := rfl

/-! ## tick -/

@[simp] theorem tick_mem (s : State) : (tick s).mem = s.mem := rfl
@[simp] theorem tick_V (s : State) : (tick s).V = s.V := rfl
@[simp] theorem tick_I (s : State) : (tick s).I = s.I := rfl
@[simp] theorem tick_pc (s : State) : (tick s).pc = s.pc := rfl
@[simp] theorem tick_stack (s : State) : (tick s).stack = s.stack := rfl
@[simp] theorem tick_DT (s : State) : (tick s).DT = countDown s.DT := rfl
@[simp] theorem tick_ST (s : State) : (tick s).ST = countDown s.ST := rfl
@[simp] theorem tick_fb (s : State) : (tick s).fb = s.fb := rfl
@[simp] theorem tick_run (s : State) : (tick s).run = s.run := rfl
@[simp] theorem tick_prevKeys (s : State) : (tick s).prevKeys = s.prevKeys := rfl
@[simp] theorem tick_par (s : State) : (tick s).par = s.par := rfl
@[simp] theorem tick_inbox (s : State) : (tick s).inbox = s.inbox := rfl
@[simp] theorem tick_keys (s : State) : (tick s).keys = s.keys := rfl
@[simp] theorem tick_rnd (s : State) : (tick s).rnd = s.rnd := rfl
@[simp] theorem tick_redraw (s : State) : (tick s).redraw = s.redraw := rfl
@[simp] theorem tick_started (s : State) : (tick s).started = s.started := rfl
@[simp] theorem tick_draws (s : State) : (tick s).draws = s.draws := rfl

/-! ## ticks -/

@[simp] theorem ticks_mem (n : Nat) (s : State) : (ticks n s).mem = s.mem := rfl
@[simp] theorem ticks_V (n : Nat) (s : State) : (ticks n s).V = s.V := rfl
@[simp] theorem ticks_I (n : Nat) (s : State) : (ticks n s).I = s.I := rfl
@[simp] theorem ticks_pc (n : Nat) (s : State) : (ticks n s).pc = s.pc := rfl
@[simp] theorem ticks_stack (n : Nat) (s : State) : (ticks n s).stack = s.stack := rfl
@[simp] theorem ticks_DT (n : Nat) (s : State) : (ticks n s).DT = BitVec.ofNat 8 (s.DT.toNat - n) := rfl
@[simp] theorem ticks_ST (n : Nat) (s : State) : (ticks n s).ST = BitVec.ofNat 8 (s.ST.toNat - n) := rfl
@[simp] theorem ticks_fb (n : Nat) (s : State) : (ticks n s).fb = s.fb := rfl
@[simp] theorem ticks_run (n : Nat) (s : State) : (ticks n s).run = s.run := rfl
@[simp] theorem ticks_prevKeys (n : Nat) (s : State) : (ticks n s).prevKeys = s.prevKeys := rfl
@[simp] theorem ticks_par (n : Nat) (s : State) : (ticks n s).par = s.par := rfl
@[simp] theorem ticks_inbox (n : Nat) (s : State) : (ticks n s).inbox = s.inbox := rfl
@[simp] theorem ticks_keys (n : Nat) (s : State) : (ticks n s).keys = s.keys := rfl
@[simp] theorem ticks_rnd (n : Nat) (s : State) : (ticks n s).rnd = s.rnd := rfl
@[simp] theorem ticks_redraw (n : Nat) (s : State) : (ticks n s).redraw = s.redraw := rfl
@[simp] theorem ticks_started (n : Nat) (s : State) : (ticks n s).started = s.started := rfl
@[simp] theorem ticks_draws (n : Nat) (s : State) : (ticks n s).draws = s.draws := rfl

/-! ## unspecify -/

@[simp] theorem unspecify_mem (s : State) : (unspecify s).mem = Memory.ofCells s.par.font (Config.unspecified s.draws).cells := rfl
@[simp] theorem unspecify_V (s : State) : (unspecify s).V = (Config.unspecified s.draws).V := rfl
@[simp] theorem unspecify_I (s : State) : (unspecify s).I = (Config.unspecified s.draws).I := rfl
@[simp] theorem unspecify_pc (s : State) : (unspecify s).pc = (Config.unspecified s.draws).pc := rfl
@[simp] theorem unspecify_stack (s : State) : (unspecify s).stack = (Config.unspecified s.draws).stack := rfl
@[simp] theorem unspecify_DT (s : State) : (unspecify s).DT = (Config.unspecified s.draws).DT := rfl
@[simp] theorem unspecify_ST (s : State) : (unspecify s).ST = (Config.unspecified s.draws).ST := rfl
@[simp] theorem unspecify_fb (s : State) : (unspecify s).fb = (Config.unspecified s.draws).fb := rfl
@[simp] theorem unspecify_run (s : State) : (unspecify s).run = s.run := rfl
@[simp] theorem unspecify_prevKeys (s : State) : (unspecify s).prevKeys = (Config.unspecified s.draws).prevKeys := rfl
@[simp] theorem unspecify_par (s : State) : (unspecify s).par = s.par := rfl
@[simp] theorem unspecify_inbox (s : State) : (unspecify s).inbox = s.inbox := rfl
@[simp] theorem unspecify_keys (s : State) : (unspecify s).keys = s.keys := rfl
@[simp] theorem unspecify_rnd (s : State) : (unspecify s).rnd = s.rnd := rfl
@[simp] theorem unspecify_redraw (s : State) : (unspecify s).redraw = s.redraw := rfl
@[simp] theorem unspecify_started (s : State) : (unspecify s).started = s.started := rfl
@[simp] theorem unspecify_draws (s : State) : (unspecify s).draws = s.draws + 1 := rfl

/-! ## bootState -/

@[simp] theorem bootState_mem (image : List Byte) (s : State) : (bootState image s).mem = Memory.place s.par.font image 0x200 [] := rfl
@[simp] theorem bootState_V (image : List Byte) (s : State) : (bootState image s).V = Vector.replicate 16 0 := rfl
@[simp] theorem bootState_I (image : List Byte) (s : State) : (bootState image s).I = 0 := rfl
@[simp] theorem bootState_pc (image : List Byte) (s : State) : (bootState image s).pc = 0x0200 := rfl
@[simp] theorem bootState_stack (image : List Byte) (s : State) : (bootState image s).stack = [] := rfl
@[simp] theorem bootState_DT (image : List Byte) (s : State) : (bootState image s).DT = 0 := rfl
@[simp] theorem bootState_ST (image : List Byte) (s : State) : (bootState image s).ST = 0 := rfl
@[simp] theorem bootState_fb (image : List Byte) (s : State) : (bootState image s).fb = clearedFb := rfl
@[simp] theorem bootState_run (image : List Byte) (s : State) : (bootState image s).run = .running := rfl
@[simp] theorem bootState_prevKeys (image : List Byte) (s : State) : (bootState image s).prevKeys = 0 := rfl
@[simp] theorem bootState_par (image : List Byte) (s : State) : (bootState image s).par = s.par := rfl
@[simp] theorem bootState_inbox (image : List Byte) (s : State) : (bootState image s).inbox = s.inbox := rfl
@[simp] theorem bootState_keys (image : List Byte) (s : State) : (bootState image s).keys = 0 := rfl
@[simp] theorem bootState_rnd (image : List Byte) (s : State) : (bootState image s).rnd = 0 := rfl
@[simp] theorem bootState_redraw (image : List Byte) (s : State) : (bootState image s).redraw = false := rfl
@[simp] theorem bootState_started (image : List Byte) (s : State) : (bootState image s).started = true := rfl
@[simp] theorem bootState_draws (image : List Byte) (s : State) : (bootState image s).draws = s.draws := rfl

/-! ## skipIf -/

@[simp] theorem skipIf_mem (c : Bool) (s : State) : (skipIf c s).mem = s.mem := by cases c <;> rfl
@[simp] theorem skipIf_V (c : Bool) (s : State) : (skipIf c s).V = s.V := by cases c <;> rfl
@[simp] theorem skipIf_I (c : Bool) (s : State) : (skipIf c s).I = s.I := by cases c <;> rfl
theorem skipIf_pc (c : Bool) (s : State) : (skipIf c s).pc = if c then s.pc + 2 else s.pc := by cases c <;> rfl
@[simp] theorem skipIf_stack (c : Bool) (s : State) : (skipIf c s).stack = s.stack := by cases c <;> rfl
@[simp] theorem skipIf_DT (c : Bool) (s : State) : (skipIf c s).DT = s.DT := by cases c <;> rfl
@[simp] theorem skipIf_ST (c : Bool) (s : State) : (skipIf c s).ST = s.ST := by cases c <;> rfl
@[simp] theorem skipIf_fb (c : Bool) (s : State) : (skipIf c s).fb = s.fb := by cases c <;> rfl
@[simp] theorem skipIf_run (c : Bool) (s : State) : (skipIf c s).run = s.run := by cases c <;> rfl
@[simp] theorem skipIf_prevKeys (c : Bool) (s : State) : (skipIf c s).prevKeys = s.prevKeys := by cases c <;> rfl
@[simp] theorem skipIf_par (c : Bool) (s : State) : (skipIf c s).par = s.par := by cases c <;> rfl
@[simp] theorem skipIf_inbox (c : Bool) (s : State) : (skipIf c s).inbox = s.inbox := by cases c <;> rfl
@[simp] theorem skipIf_keys (c : Bool) (s : State) : (skipIf c s).keys = s.keys := by cases c <;> rfl
@[simp] theorem skipIf_rnd (c : Bool) (s : State) : (skipIf c s).rnd = s.rnd := by cases c <;> rfl
@[simp] theorem skipIf_redraw (c : Bool) (s : State) : (skipIf c s).redraw = s.redraw := by cases c <;> rfl
@[simp] theorem skipIf_started (c : Bool) (s : State) : (skipIf c s).started = s.started := by cases c <;> rfl
@[simp] theorem skipIf_draws (c : Bool) (s : State) : (skipIf c s).draws = s.draws := by cases c <;> rfl

/-! ## Reads through an update of another field -/

@[simp] theorem skipIf_reg (c : Bool) (s : State) (r : Reg) : (skipIf c s).reg r = s.reg r := by cases c <;> rfl
@[simp] theorem setReg_byteAt (s : State) (x : Reg) (v : Byte) (a : Nat) : (s.setReg x v).byteAt a = s.byteAt a := rfl
@[simp] theorem setFlag_byteAt (s : State) (f : Byte) (a : Nat) : (s.setFlag f).byteAt a = s.byteAt a := rfl
@[simp] theorem skipIf_byteAt (c : Bool) (s : State) (a : Nat) : (skipIf c s).byteAt a = s.byteAt a := by cases c <;> rfl
@[simp] theorem advancePc_reg (s : State) (r : Reg) : (advancePc s).reg r = s.reg r := rfl
@[simp] theorem advancePc_byteAt (s : State) (a : Nat) : (advancePc s).byteAt a = s.byteAt a := rfl
@[simp] theorem sampleInputs_byteAt (k : Keys) (r : Byte) (s : State) (a : Nat) : (sampleInputs k r s).byteAt a = s.byteAt a := rfl

end Sys2Proof.Machine
end

