-- ==== Sys2Proof/Laws/Memory.lean ====
section
/-! SUPPORT. Memory: a read after a write, and that every memory operation keeps the canonical form. -/

namespace Sys2Proof

/-! ## Lookups -/

theorem Memory.lookup_none_of_forall_ne (m : Memory) (a : Nat) (h : ∀ c ∈ m, c.1 ≠ a) :
    Memory.lookup m a = none := by
  induction m with
  | nil => rfl
  | cons c m ih =>
    have hc : c.1 ≠ a := h c (by simp)
    simp [Memory.lookup, hc, ih (fun d hd => h d (by simp [hd]))]

theorem Memory.lookup_put (m : Memory) (a b : Nat) (v : Byte) :
    Memory.lookup (Memory.put m a v) b = if b = a then some v else Memory.lookup m b := by
  induction m with
  | nil => simp [Memory.put, Memory.lookup, eq_comm]
  | cons c m ih =>
    unfold Memory.put
    split
    · simp [Memory.lookup, eq_comm (a := a)]
    · split
      · next _ he =>
        by_cases hb : b = a
        · simp [Memory.lookup, hb]
        · have h1 : c.1 ≠ b := by omega
          simp [Memory.lookup, hb, Ne.symm hb, h1]
      · next _ hne =>
        by_cases hc : c.1 = b
        · have : b ≠ a := by omega
          simp [Memory.lookup, hc, this]
        · simp [Memory.lookup, hc, ih]

theorem Memory.lookup_remove (m : Memory) (a b : Nat) (hs : m.Pairwise (fun c d => c.1 < d.1)) :
    Memory.lookup (Memory.remove m a) b = if b = a then none else Memory.lookup m b := by
  induction m with
  | nil => simp [Memory.remove, Memory.lookup]
  | cons c m ih =>
    obtain ⟨hlt, hm⟩ := List.pairwise_cons.mp hs
    unfold Memory.remove
    by_cases hc : c.1 = a
    · rw [if_pos hc]
      by_cases hb : b = a
      · rw [if_pos hb]
        exact Memory.lookup_none_of_forall_ne m b (fun d hd => by have := hlt d hd; omega)
      · have : c.1 ≠ b := by omega
        simp [Memory.lookup, hb, this]
    · rw [if_neg hc]
      by_cases hb : c.1 = b
      · have : b ≠ a := by omega
        simp [Memory.lookup, hb, this]
      · simp [Memory.lookup, hb, ih hm]

/-! ## A read after a write -/

/-- The byte read after a write: the byte written there, every other byte as before. -/
theorem Memory.read_write (font : Font) (m : Memory) (a b : Nat) (v : Byte) (hm : Memory.wf font m) :
    Memory.read font (Memory.write font m a v) b = if b = a then v else Memory.read font m b := by
  unfold Memory.read Memory.write
  by_cases hv : v = Memory.background font a
  · rw [if_pos hv, Memory.lookup_remove m a b hm.1]
    by_cases hb : b = a
    · rw [if_pos hb, if_pos hb, hb, hv, Option.getD_none]
    · rw [if_neg hb, if_neg hb]
  · rw [if_neg hv, Memory.lookup_put]
    by_cases hb : b = a
    · rw [if_pos hb, if_pos hb, Option.getD_some]
    · rw [if_neg hb, if_neg hb]

/-! ## The canonical form -/

theorem Memory.nil_wf (font : Font) : Memory.wf font [] := ⟨List.Pairwise.nil, fun _ h => absurd h List.not_mem_nil⟩

theorem Memory.mem_remove {m : Memory} {a : Nat} {c : Host.Cell} (h : c ∈ Memory.remove m a) : c ∈ m := by
  induction m with
  | nil => exact h
  | cons d m ih =>
    unfold Memory.remove at h
    split at h
    · exact List.mem_cons_of_mem _ h
    · rcases List.mem_cons.mp h with h | h
      · exact h ▸ List.mem_cons_self
      · exact List.mem_cons_of_mem _ (ih h)

theorem Memory.mem_put {m : Memory} {a : Nat} {v : Byte} {c : Host.Cell} (h : c ∈ Memory.put m a v) :
    c = (a, v) ∨ c ∈ m := by
  induction m with
  | nil => simpa [Memory.put] using h
  | cons d m ih =>
    unfold Memory.put at h
    split at h
    · rcases List.mem_cons.mp h with h | h
      · exact .inl h
      · exact .inr h
    · split at h
      · rcases List.mem_cons.mp h with h | h
        · exact .inl h
        · exact .inr (List.mem_cons_of_mem _ h)
      · rcases List.mem_cons.mp h with h | h
        · exact .inr (h ▸ List.mem_cons_self)
        · exact (ih h).imp id (List.mem_cons_of_mem _)

theorem Memory.remove_sorted {m : Memory} {a : Nat} (hs : m.Pairwise (fun c d => c.1 < d.1)) :
    (Memory.remove m a).Pairwise (fun c d => c.1 < d.1) := by
  induction m with
  | nil => exact hs
  | cons c m ih =>
    obtain ⟨hlt, hm⟩ := List.pairwise_cons.mp hs
    unfold Memory.remove
    split
    · exact hm
    · exact List.pairwise_cons.mpr ⟨fun d hd => hlt d (Memory.mem_remove hd), ih hm⟩

theorem Memory.put_sorted {m : Memory} {a : Nat} {v : Byte} (hs : m.Pairwise (fun c d => c.1 < d.1)) :
    (Memory.put m a v).Pairwise (fun c d => c.1 < d.1) := by
  induction m with
  | nil => simp [Memory.put]
  | cons c m ih =>
    obtain ⟨hlt, hm⟩ := List.pairwise_cons.mp hs
    unfold Memory.put
    split
    · next hac =>
      refine List.pairwise_cons.mpr ⟨fun d hd => ?_, hs⟩
      rcases List.mem_cons.mp hd with rfl | hd
      · exact hac
      · exact lt_trans hac (hlt d hd)
    · split
      · next hca => exact List.pairwise_cons.mpr ⟨fun d hd => by have := hlt d hd; simp; omega, hm⟩
      · next h1 h2 =>
        refine List.pairwise_cons.mpr ⟨fun d hd => ?_, ih hm⟩
        rcases Memory.mem_put hd with rfl | hd
        · simp; omega
        · exact hlt d hd

/-- A write inside Memory keeps the canonical form. -/
theorem Memory.write_wf {font : Font} {m : Memory} {a : Nat} {v : Byte} (hm : Memory.wf font m) (ha : a < 4096) :
    Memory.wf font (Memory.write font m a v) := by
  unfold Memory.write
  split
  · exact ⟨Memory.remove_sorted hm.1, fun c hc => hm.2 c (Memory.mem_remove hc)⟩
  · next hv =>
    refine ⟨Memory.put_sorted hm.1, fun c hc => ?_⟩
    rcases Memory.mem_put hc with rfl | hc
    · exact ⟨ha, hv⟩
    · exact hm.2 c hc

theorem Memory.place_wf {font : Font} (bs : List Byte) (a : Nat) (m : Memory) (hm : Memory.wf font m)
    (h : a + bs.length ≤ 4096) : Memory.wf font (Memory.place font bs a m) := by
  induction bs generalizing a m with
  | nil => exact hm
  | cons b bs ih =>
    simp only [List.length_cons] at h
    exact ih (a + 1) _ (Memory.write_wf hm (by omega)) (by omega)

theorem Memory.ofCells_wf (font : Font) (cs : List Host.Cell) : Memory.wf font (Memory.ofCells font cs) := by
  induction cs with
  | nil => exact Memory.nil_wf font
  | cons c cs ih =>
    unfold Memory.ofCells
    split
    · next h => exact Memory.write_wf ih h
    · exact ih

/-- What a byte reads as after placing bytes at consecutive addresses. -/
theorem Memory.read_place (font : Font) (bs : List Byte) (a : Nat) (m : Memory) (hm : Memory.wf font m)
    (h : a + bs.length ≤ 4096) (b : Nat) :
    Memory.read font (Memory.place font bs a m) b =
      if hb : a ≤ b ∧ b - a < bs.length then bs[b - a]'hb.2 else Memory.read font m b := by
  induction bs generalizing a m with
  | nil => simp [Memory.place]
  | cons v bs ih =>
    simp only [List.length_cons] at h
    rw [Memory.place, ih (a + 1) _ (Memory.write_wf hm (by omega)) (by omega), Memory.read_write _ _ _ _ _ hm]
    by_cases hab : b = a
    · subst hab
      rw [dif_neg (by omega), dif_pos ⟨le_refl _, by simp⟩]
      simp
    · by_cases hlt : a < b
      · have e : b - a = (b - (a + 1)) + 1 := by omega
        by_cases hb : b - (a + 1) < bs.length
        · rw [dif_pos ⟨by omega, hb⟩, dif_pos ⟨by omega, by simp; omega⟩]
          simp only [e, List.getElem_cons_succ]
        · rw [dif_neg (by omega), dif_neg (by simp; omega), if_neg hab]
      · rw [dif_neg (by omega), dif_neg (by omega), if_neg hab]

/-- No memory is listed at reset, so the canonical form holds there. -/
theorem Machine.State.reset_mem_wf : Memory.wf State.reset.par.font State.reset.mem := Memory.nil_wf _

end Sys2Proof
end

