-- ==== Sys2Proof/Laws/Ops.lean ====
section
/-! SUPPORT. One lemma per shared operation that says everything it can do; the lemmas about meanings cite these. -/

namespace Sys2Proof.Machine

/-! ## Completing an instruction and raising a fault -/

@[simp] theorem complete_ok (s t : State) : complete s (.ok t) = .next t := rfl

@[simp] theorem complete_error (s : State) (c : Fault) : complete s (.error c) = raise c s := rfl

/-- `raise` answers a next state: the cause in `run`, `redraw` 0, the interface fields kept, memory canonical. -/
theorem raise_spec (c : Fault) (s : State) :
    ∃ t, raise c s = .next t ∧ t.run = .faulted c ∧ t.redraw = false ∧ t.par = s.par ∧ t.inbox = s.inbox ∧
      t.keys = s.keys ∧ t.rnd = s.rnd ∧ t.started = s.started ∧ Memory.wf t.par.font t.mem :=
  ⟨_, rfl, rfl, rfl, rfl, rfl, rfl, rfl, rfl, Memory.ofCells_wf _ _⟩

/-! ## Byte accesses -/

theorem readByte_ok {a : Nat} (s : State) (h : a < 4096) : readByte a s = .ok (s.byteAt a) := by
  simp [readByte, h]

theorem readByte_error {a : Nat} (s : State) (h : 4096 ≤ a) : readByte a s = .error (.outOfBounds a) := by
  simp [readByte, h]

theorem writeByte_ok {a : Nat} (v : Byte) (s : State) (h : a < 4096) :
    writeByte a v s = .ok { s with mem := Memory.write s.par.font s.mem a v } := by
  simp [writeByte, h]

theorem writeByte_error {a : Nat} (v : Byte) (s : State) (h : 4096 ≤ a) :
    writeByte a v s = .error (.outOfBounds a) := by
  simp [writeByte, h]

/-! ## Block accesses -/

/-- A block read inside Memory gives the bytes in order. -/
theorem readBytes_ok (n a : Nat) (s : State) (h : n = 0 ∨ a + n ≤ 4096) :
    readBytes n a s = .ok ((List.range n).map (fun k => s.byteAt (a + k))) := by
  induction n generalizing a with
  | zero => rfl
  | succ n ih =>
    have e : (fun k => s.byteAt (a + 1 + k)) = (fun k => s.byteAt (a + k)) ∘ Nat.succ := by
      funext k; simp [Nat.add_assoc, Nat.add_comm 1 k]
    simp only [readBytes, readByte_ok s (show a < 4096 by omega), ih (a + 1) (by omega)]
    rw [List.range_succ_eq_map, List.map_cons, List.map_map, e, Nat.add_zero]

/-- A block read that leaves Memory raises the fault of its lowest address outside. -/
theorem readBytes_error (n a : Nat) (s : State) (hn : 1 ≤ n) (h : 4096 ≤ a + n - 1) :
    readBytes n a s = .error (.outOfBounds (max a 4096)) := by
  induction n generalizing a with
  | zero => omega
  | succ n ih =>
    by_cases ha : a < 4096
    · simp only [readBytes, readByte_ok s ha, ih (a + 1) (by omega) (by omega)]
      rw [Nat.max_eq_right (show a + 1 ≤ 4096 by omega), Nat.max_eq_right (show a ≤ 4096 by omega)]
    · simp only [readBytes, readByte_error s (show 4096 ≤ a by omega)]
      rw [Nat.max_eq_left (show 4096 ≤ a by omega)]

/-- A block write inside Memory places the bytes in order and changes nothing else. -/
theorem writeBytes_ok (bs : List Byte) (a : Nat) (s : State) (h : bs = [] ∨ a + bs.length ≤ 4096) :
    writeBytes bs a s = .ok { s with mem := Memory.place s.par.font bs a s.mem } := by
  induction bs generalizing a s with
  | nil => rfl
  | cons b bs ih =>
    have hl : a + (bs.length + 1) ≤ 4096 := by simpa using h
    simp only [writeBytes, writeByte_ok b s (show a < 4096 by omega)]
    rw [ih (a + 1) _ (.inr (by omega))]
    rfl

/-- A block write that leaves Memory raises the fault of its lowest address outside. -/
theorem writeBytes_error (bs : List Byte) (a : Nat) (s : State) (hn : 1 ≤ bs.length) (h : 4096 ≤ a + bs.length - 1) :
    writeBytes bs a s = .error (.outOfBounds (max a 4096)) := by
  induction bs generalizing a s with
  | nil => simp at hn
  | cons b bs ih =>
    simp only [List.length_cons] at h
    by_cases ha : a < 4096
    · simp only [writeBytes, writeByte_ok b s ha]
      rw [ih (a + 1) _ (by omega) (by omega), Nat.max_eq_right (show a + 1 ≤ 4096 by omega),
        Nat.max_eq_right (show a ≤ 4096 by omega)]
    · simp only [writeBytes, writeByte_error b s (show 4096 ≤ a by omega)]
      rw [Nat.max_eq_left (show 4096 ≤ a by omega)]

/-- The registers a `reg-dump` stores. -/
theorem regsUpTo_length (s : State) (x : Reg) : (s.regsUpTo x).length = x.toNat + 1 := by
  have := x.isLt
  simp [State.regsUpTo]
  omega

theorem regsUpTo_getElem (s : State) (x r : Reg) (h : r ≤ x) :
    (s.regsUpTo x)[r.toNat]'(by rw [regsUpTo_length]; have := BitVec.le_def.mp h; omega) = s.reg r := by
  simp [State.regsUpTo, State.reg]

@[simp] theorem bcdDigits_length (v : Byte) : (bcdDigits v).length = 3 := rfl

/-! ## Stack -/

theorem push_full {s : State} (v : Word) (h : s.par.stackDepth = some s.stack.length) :
    push v s = .error .stackOverflow := by
  simp [push, State.depth, h]

theorem push_ok {s : State} (v : Word) (h : s.par.stackDepth ≠ some s.stack.length) :
    push v s = .ok { s with stack := s.stack ++ [v] } := by
  simp [push, State.depth, h]

theorem pop_empty {s : State} (h : s.stack = []) : pop s = .error .stackUnderflow := by
  simp [pop, h]

theorem pop_append {s : State} {older : List Word} {a : Word} (h : s.stack = older ++ [a]) :
    pop s = .ok (a, { s with stack := older }) := by
  simp [pop, h]

/-! ## Timers -/

theorem countDown_toNat (c : Byte) : (countDown c).toNat = c.toNat - 1 := by
  unfold countDown
  split
  · next h =>
    have hc : c.toNat ≠ 0 := fun e => h (BitVec.eq_of_toNat_eq (by simpa using e))
    have := c.isLt
    simp [BitVec.toNat_sub]
    omega
  · next h =>
    have hc : c = 0 := by simpa using h
    simp [hc]

theorem countDown_eq (c : Byte) : countDown c = BitVec.ofNat 8 (c.toNat - 1) := by
  apply BitVec.eq_of_toNat_eq
  have := c.isLt
  simp [countDown_toNat]
  omega

@[simp] theorem ticks_zero (s : State) : ticks 0 s = s := by simp [ticks]

/-- One tick after `n` is `n + 1` ticks at once. -/
theorem tick_ticks (n : Nat) (s : State) : tick (ticks n s) = ticks (n + 1) s := by
  have h1 := s.DT.isLt
  have h2 := s.ST.isLt
  simp only [tick, ticks, countDown_eq, BitVec.toNat_ofNat]
  congr 2 <;> omega

/-- `n` ticks at once are `n` single ticks (40_cycle.md R80). -/
theorem ticks_eq_iterate (n : Nat) (s : State) : ticks n s = tick^[n] s := by
  induction n with
  | zero => simp
  | succ n ih => rw [← tick_ticks, ih, Function.iterate_succ_apply']

/-! ## Keys -/

theorem keyState_ok {v : Byte} (s : State) (h : v.toNat ≤ 0x0F) : keyState v s = .ok (s.keys.getLsbD v.toNat) := by
  simp [keyState, Nat.not_lt.mpr h]

theorem keyState_error {v : Byte} (s : State) (h : 0x0F < v.toNat) :
    keyState v s = .error (.keyIndexOutOfRange v) := by
  simp [keyState, h]

theorem mem_keyCodes {ks : Keys} {k : Nat} : k ∈ keyCodes ks ↔ k < 16 ∧ ks.getLsbD k = true := by
  simp [keyCodes]

/-- The choice among codes is one of them, and there is one exactly when there are codes. -/
theorem chooseKey_spec (n : Nat) (codes : List Nat) :
    (codes = [] → chooseKey n codes = none) ∧
    (codes ≠ [] → ∃ k ∈ codes, chooseKey n codes = some k) := by
  constructor
  · rintro rfl; rfl
  · intro h
    match codes, h with
    | [k], _ => exact ⟨k, by simp, rfl⟩
    | k :: l :: ks, _ =>
      have hlt : Config.freeChoice n % (ks.length + 2) < (k :: l :: ks).length := by
        have := Nat.mod_lt (Config.freeChoice n) (show 0 < ks.length + 2 by omega)
        simp only [List.length_cons]
        omega
      exact ⟨_, List.getElem_mem hlt, by simp only [chooseKey]; exact List.getElem?_eq_getElem hlt⟩

/-- No key is chosen exactly when no bit is set. -/
theorem chooseKey_keyCodes_none (n : Nat) (ks : Keys) : chooseKey n (keyCodes ks) = none ↔ ks = 0 := by
  constructor
  · intro h
    by_contra hk
    have hne : keyCodes ks ≠ [] := by
      intro he
      apply hk
      apply BitVec.eq_of_getLsbD_eq
      intro i hi
      have : i ∉ keyCodes ks := by simp [he]
      simpa [mem_keyCodes, hi] using this
    obtain ⟨k, -, hk'⟩ := (chooseKey_spec n _).2 hne
    simp [hk'] at h
  · rintro rfl
    exact (chooseKey_spec n _).1 (by decide)

end Sys2Proof.Machine
end

