-- ==== Sys2Proof/Laws/Cycle.lean ====
section
/-! SUPPORT. What a cycle, an event and a step can do, said once. -/

namespace Sys2Proof.Machine

/-! ## Equations -/

/-- `cycle` on the run state it starts from (40_cycle.md R70): the inputs decide nothing before the execution. -/
theorem cycle_eq (k : Keys) (r : Byte) (s : State) :
    cycle k r s =
      match s.run with
      | .halted | .faulted _ => .next (sampleInputs k r s)
      | .awaitingKey x => .next (awaitKey x (sampleInputs k r s))
      | .running =>
        if fetchOutside s then .next { sampleInputs k r s with run := .halted }
        else executeWord (fetchWord s) (advancePc (sampleInputs k r s)) := rfl

theorem cycle_ended {k : Keys} {r : Byte} {s : State} (h : s.ended = true) :
    cycle k r s = .next (sampleInputs k r s) := by
  rw [cycle_eq]
  cases hr : s.run <;> simp [State.ended, hr] at h ⊢

theorem deliver_cycle {k : Keys} {r : Byte} {s : State} (h : s.started = true) :
    deliver (.cycle k r) s = cycle k r s := if_pos h

theorem deliver_tick {s : State} (h : s.started = true) : deliver .tick s = .next (tick s) := if_pos h

theorem step_cons {s : State} {e : HostEvent} {rest : List HostEvent} (h : s.inbox = e :: rest) :
    step s = deliver e { s with inbox := rest } := by
  simp only [step, nextEvent, h]

theorem step_nil {s : State} (h : s.inbox = []) : step s = freeStep s := by
  simp only [step, nextEvent, h]

/-- Without a pending event a started machine ticks some number of times and runs a cycle. -/
theorem freeStep_started {s : State} (h : s.started = true) :
    ∃ n k r, freeStep s = cycle k r (ticks n { s with draws := s.draws + 1 }) :=
  ⟨Config.freeTicks s.draws, Config.freeKeys s.draws, Config.freeRnd s.draws, deliver_cycle h⟩

theorem imageFits_iff (image : List Byte) : imageFits image = true ↔ image.length ≤ 3584 := by
  simp [imageFits]
  omega

theorem fetchOutside_iff (s : State) : fetchOutside s = true ↔ 0xFFF ≤ s.pc.toNat := by
  simp [fetchOutside]

theorem run_core_zero (s : State) : Host.Core.run core 0 s = .next s := rfl

theorem run_core_succ {s t : State} (n : Nat) (h : step s = .next t) :
    Host.Core.run core (n + 1) s = Host.Core.run core n t := by
  have e := Host.Core.run.eq_2 core s n
  rw [show core.step s = .next t from h] at e
  exact e

/-! ## What can happen -/

/-- A cycle answers a next state in one of five ways (40_cycle.md R70). `b` is the state with this cycle's inputs. -/
theorem cycle_cases {k : Keys} {r : Byte} {s t : State} (h : cycle k r s = .next t) :
    let b := sampleInputs k r s
    (s.ended = true ∧ t = b) ∨
    (∃ x, s.run = .awaitingKey x ∧ t = awaitKey x b) ∨
    (s.run = .running ∧ fetchOutside s = true ∧ t = { b with run := .halted }) ∨
    (s.run = .running ∧ fetchOutside s = false ∧ decodeWord (fetchWord s) = none ∧ t = advancePc b) ∨
    (∃ i, s.run = .running ∧ fetchOutside s = false ∧ decodeWord (fetchWord s) = some i ∧
      exec i (advancePc b) = .next t) := by
  intro b
  rw [cycle_eq] at h
  cases hr : s.run with
  | halted => simp only [hr, Host.Outcome.next.injEq] at h; exact .inl ⟨by simp [State.ended, hr], h.symm⟩
  | faulted c => simp only [hr, Host.Outcome.next.injEq] at h; exact .inl ⟨by simp [State.ended, hr], h.symm⟩
  | awaitingKey x => simp only [hr, Host.Outcome.next.injEq] at h; exact .inr (.inl ⟨x, rfl, h.symm⟩)
  | running =>
    simp only [hr] at h
    cases hf : fetchOutside s with
    | true => simp only [hf, if_true, Host.Outcome.next.injEq] at h; exact .inr (.inr (.inl ⟨rfl, rfl, h.symm⟩))
    | false =>
      simp only [hf, Bool.false_eq_true, if_false, executeWord] at h
      cases hd : decodeWord (fetchWord s) with
      | none =>
        simp only [hd, execNopUndefined, Host.Outcome.next.injEq] at h
        exact .inr (.inr (.inr (.inl ⟨rfl, rfl, rfl, h.symm⟩)))
      | some i =>
        simp only [hd] at h
        exact .inr (.inr (.inr (.inr ⟨i, rfl, rfl, rfl, h⟩)))

/-- A step answers a next state through a reset, a tick or a cycle. With no event pending the cycle starts from the
state that some number of ticks leaves. -/
theorem step_cases {s t : State} (h : step s = .next t) :
    (∃ image rest, s.inbox = .reset image :: rest ∧ t = resetEvent image { s with inbox := rest }) ∨
    (∃ rest, s.inbox = .tick :: rest ∧ s.started = true ∧ t = tick { s with inbox := rest }) ∨
    (∃ k r rest, s.inbox = .cycle k r :: rest ∧ s.started = true ∧ cycle k r { s with inbox := rest } = .next t) ∨
    (∃ n k r, s.inbox = [] ∧ s.started = true ∧ cycle k r (ticks n { s with draws := s.draws + 1 }) = .next t) := by
  unfold step nextEvent at h
  cases hi : s.inbox with
  | nil =>
    simp only [hi, freeStep, deliver, ticks_started] at h
    cases hs : s.started with
    | false => simp [hs] at h
    | true =>
      simp only [hs, if_true] at h
      exact .inr (.inr (.inr ⟨_, _, _, rfl, rfl, h⟩))
  | cons e rest =>
    simp only [hi] at h
    cases e with
    | reset image =>
      simp only [deliver, Host.Outcome.next.injEq] at h
      exact .inl ⟨image, rest, rfl, h.symm⟩
    | tick =>
      cases hs : s.started with
      | false => simp [deliver, hs] at h
      | true =>
        simp only [deliver, hs, if_true, Host.Outcome.next.injEq] at h
        exact .inr (.inl ⟨rest, rfl, rfl, h.symm⟩)
    | cycle k r =>
      cases hs : s.started with
      | false => simp [deliver, hs] at h
      | true =>
        simp only [deliver, hs, if_true] at h
        exact .inr (.inr (.inl ⟨k, r, rest, rfl, rfl, h⟩))

/-- A pending cycle in a started, running machine with `pc` inside Memory decodes and executes the word at `pc`. -/
theorem step_running {s : State} {k : Keys} {r : Byte} {rest : List HostEvent}
    (hi : s.inbox = .cycle k r :: rest) (hs : s.started = true) (hr : s.run = .running) (hp : s.pc.toNat ≤ 0xFFE) :
    step s = executeWord (fetchWord s)
      { s with inbox := rest, keys := k, rnd := r, redraw := false, pc := s.pc + 2 } := by
  have hf : ¬fetchOutside s = true := by rw [fetchOutside_iff]; omega
  rw [step_cons hi, deliver_cycle (s := { s with inbox := rest }) hs, cycle_eq]
  show (match s.run with
    | .halted | .faulted _ => _
    | .awaitingKey x => _
    | .running => if fetchOutside s then _ else _) = _
  rw [hr]
  exact if_neg hf

end Sys2Proof.Machine
end

