-- ==== Sys2Proof/Laws/Display.lean ====
section
/-! SUPPORT. The framebuffer: what a toggle changes, and what a list of toggles comes to. -/

namespace Sys2Proof.Machine

/-- Two points fall on one grid pixel (44_display.md R150). -/
def SamePixel (p : Nat × Nat) (dx dy : Nat) : Prop := p.1 % 64 = dx % 64 ∧ p.2 % 32 = dy % 32

theorem pixel_togglePixel (cx cy dx dy : Nat) (fb : Framebuffer) :
    pixel (togglePixel cx cy fb) dx dy =
      if dx % 64 = cx % 64 ∧ dy % 32 = cy % 32 then !pixel fb dx dy else pixel fb dx dy := by
  unfold togglePixel
  by_cases hy : dy % 32 = cy % 32
  · by_cases hx : dx % 64 = cx % 64
    · simp [pixel, hx, hy]
    · have : cx % 64 ≠ dx % 64 := fun e => hx e.symm
      simp [pixel, hx, hy, this]
  · have : cy % 32 ≠ dy % 32 := fun e => hy e.symm
    simp [pixel, hy, this]

theorem pixel_clearedFb (cx cy : Nat) : pixel clearedFb cx cy = false := by simp [pixel, clearedFb]

/-- A framebuffer is what its pixels are. -/
theorem fb_ext {a b : Framebuffer} (h : ∀ col < 64, ∀ row < 32, pixel a col row = pixel b col row) : a = b := by
  apply Vector.ext
  intro r hr
  apply Vector.ext
  intro c hc
  have := h c hc r hr
  simpa [pixel, Nat.mod_eq_of_lt hr, Nat.mod_eq_of_lt hc] using this

theorem togglePixel_twice (cx cy : Nat) (fb : Framebuffer) : togglePixel cx cy (togglePixel cx cy fb) = fb := by
  apply fb_ext
  intro col _ row _
  simp only [pixel_togglePixel]
  split <;> simp

theorem togglePixel_comm (cx cy dx dy : Nat) (fb : Framebuffer) :
    togglePixel cx cy (togglePixel dx dy fb) = togglePixel dx dy (togglePixel cx cy fb) := by
  apply fb_ext
  intro col _ row _
  simp only [pixel_togglePixel]
  split <;> split <;> rfl

theorem toggleAll_cons_fst (p : Nat × Nat) (ps : List (Nat × Nat)) (fb : Framebuffer) :
    (toggleAll (p :: ps) fb).1 = (toggleAll ps (togglePixel p.1 p.2 fb)).1 := rfl

theorem toggleAll_cons_snd (p : Nat × Nat) (ps : List (Nat × Nat)) (fb : Framebuffer) :
    (toggleAll (p :: ps) fb).2 = (pixel fb p.1 p.2 || (toggleAll ps (togglePixel p.1 p.2 fb)).2) := rfl

theorem toggleAll_togglePixel (ps : List (Nat × Nat)) (cx cy : Nat) (fb : Framebuffer) :
    (toggleAll ps (togglePixel cx cy fb)).1 = togglePixel cx cy (toggleAll ps fb).1 := by
  induction ps generalizing fb with
  | nil => rfl
  | cons p ps ih => rw [toggleAll_cons_fst, toggleAll_cons_fst, togglePixel_comm, ih]

/-- Toggling a list of points twice changes nothing. -/
theorem toggleAll_twice (ps : List (Nat × Nat)) (fb : Framebuffer) :
    (toggleAll ps (toggleAll ps fb).1).1 = fb := by
  induction ps generalizing fb with
  | nil => rfl
  | cons p ps ih =>
    rw [toggleAll_cons_fst, toggleAll_cons_fst, ← toggleAll_togglePixel, togglePixel_twice, ih]

/-- The points of a sprite have distinct pixels when no two of them share one. -/
def DistinctPixels (ps : List (Nat × Nat)) : Prop :=
  ps.Pairwise (fun p q => ¬(p.1 % 64 = q.1 % 64 ∧ p.2 % 32 = q.2 % 32))

/-- Toggling distinct pixels flips exactly those. -/
theorem pixel_toggleAll (ps : List (Nat × Nat)) (fb : Framebuffer) (hd : DistinctPixels ps) (dx dy : Nat) :
    ((∃ p ∈ ps, SamePixel p dx dy) → pixel (toggleAll ps fb).1 dx dy = !pixel fb dx dy) ∧
    ((¬∃ p ∈ ps, SamePixel p dx dy) → pixel (toggleAll ps fb).1 dx dy = pixel fb dx dy) := by
  induction ps generalizing fb with
  | nil => simp [toggleAll]
  | cons p ps ih =>
    obtain ⟨hp, hps⟩ := List.pairwise_cons.mp hd
    have ih := ih (togglePixel p.1 p.2 fb) hps
    rw [toggleAll_cons_fst]
    by_cases hs : SamePixel p dx dy
    · have hno : ¬∃ q ∈ ps, SamePixel q dx dy := by
        rintro ⟨q, hq, h1, h2⟩
        exact hp q hq ⟨hs.1.trans h1.symm, hs.2.trans h2.symm⟩
      refine ⟨fun _ => ?_, fun h => absurd ⟨p, by simp, hs⟩ h⟩
      rw [ih.2 hno, pixel_togglePixel, if_pos ⟨hs.1.symm, hs.2.symm⟩]
    · have hpx : pixel (togglePixel p.1 p.2 fb) dx dy = pixel fb dx dy := by
        rw [pixel_togglePixel, if_neg (fun h => hs ⟨h.1.symm, h.2.symm⟩)]
      constructor
      · rintro ⟨q, hq, hsq⟩
        rcases List.mem_cons.mp hq with rfl | hq
        · exact absurd hsq hs
        · rw [ih.1 ⟨q, hq, hsq⟩, hpx]
      · intro h
        rw [ih.2 (fun ⟨q, hq, hsq⟩ => h ⟨q, List.mem_cons_of_mem _ hq, hsq⟩), hpx]

/-- Toggling distinct pixels collides exactly when one of them was set. -/
theorem toggleAll_hit (ps : List (Nat × Nat)) (fb : Framebuffer) (hd : DistinctPixels ps) :
    (toggleAll ps fb).2 = true ↔ ∃ p ∈ ps, pixel fb p.1 p.2 = true := by
  induction ps generalizing fb with
  | nil => simp [toggleAll]
  | cons p ps ih =>
    obtain ⟨hp, hps⟩ := List.pairwise_cons.mp hd
    have hsame : ∀ q ∈ ps, pixel (togglePixel p.1 p.2 fb) q.1 q.2 = pixel fb q.1 q.2 := fun q hq => by
      rw [pixel_togglePixel, if_neg (fun h => hp q hq ⟨h.1.symm, h.2.symm⟩)]
    rw [toggleAll_cons_snd, Bool.or_eq_true, ih _ hps]
    simp only [List.exists_mem_cons_iff]
    refine or_congr Iff.rfl ⟨?_, ?_⟩
    · rintro ⟨q, hq, h⟩; exact ⟨q, hq, (hsame q hq) ▸ h⟩
    · rintro ⟨q, hq, h⟩; exact ⟨q, hq, (hsame q hq).symm ▸ h⟩

/-! ## The points of a sprite -/

theorem mem_spriteRow {msb : Bool} {vx cy : Nat} {b : Byte} {p : Nat × Nat} :
    p ∈ spriteRow msb vx cy b ↔ ∃ c < 8, spriteBit msb b c = true ∧ p = (vx + c, cy) := by
  simp only [spriteRow, List.mem_map, List.mem_filter, List.mem_range]
  constructor
  · rintro ⟨c, ⟨h8, hb⟩, rfl⟩; exact ⟨c, h8, hb, rfl⟩
  · rintro ⟨c, h8, hb, rfl⟩; exact ⟨c, ⟨h8, hb⟩, rfl⟩

theorem mem_spritePoints {msb : Bool} {vx : Nat} (bs : List Byte) (cy : Nat) {p : Nat × Nat} :
    p ∈ spritePoints msb vx cy bs ↔
      ∃ r, ∃ hr : r < bs.length, ∃ c < 8, spriteBit msb (bs[r]'hr) c = true ∧ p = (vx + c, cy + r) := by
  induction bs generalizing cy with
  | nil => simp [spritePoints]
  | cons b bs ih =>
    rw [spritePoints, List.mem_append, mem_spriteRow, ih]
    constructor
    · rintro (⟨c, h8, hb, rfl⟩ | ⟨r, hr, c, h8, hb, rfl⟩)
      · exact ⟨0, by simp, c, h8, hb, rfl⟩
      · exact ⟨r + 1, by simpa using hr, c, h8, by simpa using hb, by simp; omega⟩
    · rintro ⟨r, hr, c, h8, hb, rfl⟩
      cases r with
      | zero => exact .inl ⟨c, h8, hb, rfl⟩
      | succ r => exact .inr ⟨r, by simpa using hr, c, h8, by simpa using hb, by simp; omega⟩

theorem spriteRow_distinct (msb : Bool) (vx cy : Nat) (b : Byte) : DistinctPixels (spriteRow msb vx cy b) := by
  unfold DistinctPixels spriteRow
  refine List.pairwise_map.mpr ?_
  have h : ((List.range 8).filter (fun col => spriteBit msb b col)).Pairwise (fun a c => a < c ∧ a < 8 ∧ c < 8) := by
    refine List.Pairwise.filter _ ?_
    decide
  exact h.imp (fun ⟨h1, h2, h3⟩ h => by simp at h; omega)

/-- The pixels of at most 32 sprite rows are distinct. -/
theorem spritePoints_distinct (msb : Bool) (vx : Nat) (bs : List Byte) (cy : Nat) (hn : bs.length ≤ 32) :
    DistinctPixels (spritePoints msb vx cy bs) := by
  induction bs generalizing cy with
  | nil => exact List.Pairwise.nil
  | cons b bs ih =>
    simp only [List.length_cons] at hn
    refine List.pairwise_append.mpr ⟨spriteRow_distinct _ _ _ _, ih (cy + 1) (by omega), ?_⟩
    intro p hp q hq
    obtain ⟨c, -, -, rfl⟩ := mem_spriteRow.mp hp
    obtain ⟨r, hr, c', -, -, rfl⟩ := (mem_spritePoints bs (cy + 1)).mp hq
    rintro ⟨-, h⟩
    simp only at h
    omega

end Sys2Proof.Machine
end

