-- ==== Sys2Proof/Laws/PerInstr.lean ====
section
/-! SUPPORT. The round trip per instruction: decoding the word of a well-formed instruction gives it back. -/

/-- The family's statement about one instruction. -/
def Sys2Proof.Laws.RoundTrip.Statement (i : Sys2Proof.Instr) : Prop :=
  i.wellFormed = true → Sys2Proof.decodeWord (Sys2Proof.encode i) = some i

-- One proof at a time: many at once ask for more threads than the memory limit of a check allows.
set_option Elab.async false

namespace Sys2Proof.Laws.RoundTrip

theorem clearScreen : Statement .clearScreen := fun _ => by simp [encode, decodeWord, decodeFamily0]

theorem ret : Statement .ret := fun _ => by simp [encode, decodeWord, decodeFamily0]

theorem jump (nnn : Addr) : Statement (.jump nnn) := fun _ => by simp [encode, decodeWord]

theorem call (nnn : Addr) : Statement (.call nnn) := fun _ => by simp [encode, decodeWord]

theorem skipEqImm (x : Reg) (nn : Byte) : Statement (.skipEqImm x nn) := fun _ => by simp [encode, decodeWord]

theorem skipNeImm (x : Reg) (nn : Byte) : Statement (.skipNeImm x nn) := fun _ => by simp [encode, decodeWord]

theorem skipEqReg (x y : Reg) : Statement (.skipEqReg x y) := fun _ => by simp [encode, decodeWord]

theorem loadImm (x : Reg) (nn : Byte) : Statement (.loadImm x nn) := fun _ => by simp [encode, decodeWord]

theorem addImm (x : Reg) (nn : Byte) : Statement (.addImm x nn) := fun _ => by simp [encode, decodeWord]

theorem loadReg (x y : Reg) : Statement (.loadReg x y) := fun _ => by simp [encode, decodeWord, decodeFamily8]

theorem orReg (x y : Reg) : Statement (.orReg x y) := fun _ => by simp [encode, decodeWord, decodeFamily8]

theorem andReg (x y : Reg) : Statement (.andReg x y) := fun _ => by simp [encode, decodeWord, decodeFamily8]

theorem xorReg (x y : Reg) : Statement (.xorReg x y) := fun _ => by simp [encode, decodeWord, decodeFamily8]

theorem addReg (x y : Reg) : Statement (.addReg x y) := fun _ => by simp [encode, decodeWord, decodeFamily8]

theorem sub (x y : Reg) : Statement (.sub x y) := fun _ => by simp [encode, decodeWord, decodeFamily8]

theorem shr (x : Reg) : Statement (.shr x) := fun _ => by simp [encode, decodeWord, decodeFamily8]

theorem subn (x y : Reg) : Statement (.subn x y) := fun _ => by simp [encode, decodeWord, decodeFamily8]

theorem shl (x : Reg) : Statement (.shl x) := fun _ => by simp [encode, decodeWord, decodeFamily8]

theorem skipNeReg (x y : Reg) : Statement (.skipNeReg x y) := fun _ => by simp [encode, decodeWord]

theorem loadIndex (nnn : Addr) : Statement (.loadIndex nnn) := fun _ => by simp [encode, decodeWord]

theorem jumpPlusV0 (nnn : Addr) : Statement (.jumpPlusV0 nnn) := fun _ => by simp [encode, decodeWord]

theorem rand (x : Reg) (nn : Byte) : Statement (.rand x nn) := fun _ => by simp [encode, decodeWord]

theorem draw (x y : Reg) (n : Nat) : Statement (.draw x y n) := by
  intro h
  have hn : n ≤ 15 := by simpa [Instr.wellFormed] using h
  simp [encode, decodeWord, Nat.mod_eq_of_lt (show n < 16 by omega)]

theorem skipKeyPressed (x : Reg) : Statement (.skipKeyPressed x) := fun _ => by simp [encode, decodeWord, decodeFamilyE]

theorem skipKeyReleased (x : Reg) : Statement (.skipKeyReleased x) := fun _ => by simp [encode, decodeWord, decodeFamilyE]

theorem loadDelay (x : Reg) : Statement (.loadDelay x) := fun _ => by simp [encode, decodeWord, decodeFamilyF]

theorem waitKey (x : Reg) : Statement (.waitKey x) := fun _ => by simp [encode, decodeWord, decodeFamilyF]

theorem setDelay (x : Reg) : Statement (.setDelay x) := fun _ => by simp [encode, decodeWord, decodeFamilyF]

theorem setSound (x : Reg) : Statement (.setSound x) := fun _ => by simp [encode, decodeWord, decodeFamilyF]

theorem addIndex (x : Reg) : Statement (.addIndex x) := fun _ => by simp [encode, decodeWord, decodeFamilyF]

theorem indexToGlyph (x : Reg) : Statement (.indexToGlyph x) := fun _ => by simp [encode, decodeWord, decodeFamilyF]

theorem storeBcd (x : Reg) : Statement (.storeBcd x) := fun _ => by simp [encode, decodeWord, decodeFamilyF]

theorem regDump (x : Reg) : Statement (.regDump x) := fun _ => by simp [encode, decodeWord, decodeFamilyF]

theorem regLoad (x : Reg) : Statement (.regLoad x) := fun _ => by simp [encode, decodeWord, decodeFamilyF]

end Sys2Proof.Laws.RoundTrip
end

