-- ==== Sys2Proof/Laws/Registers.lean ====
section
/-! SUPPORT. What a register read gives after a register write, and what a block load writes. -/

namespace Sys2Proof.Machine

theorem reg_setReg (s : State) (x y : Reg) (v : Byte) :
    (s.setReg x v).reg y = if y = x then v else s.reg y := by
  unfold State.reg State.setReg
  by_cases h : y = x
  · subst h; simp
  · have hn : x.toNat ≠ y.toNat := fun e => h (BitVec.eq_of_toNat_eq e.symm)
    simp [h, Vector.getElem_set_ne, hn]

@[simp] theorem reg_setReg_same (s : State) (x : Reg) (v : Byte) : (s.setReg x v).reg x = v := by
  simp [reg_setReg]

theorem reg_setReg_ne (s : State) {x y : Reg} (v : Byte) (h : y ≠ x) : (s.setReg x v).reg y = s.reg y := by
  simp [reg_setReg, h]

theorem reg_setFlag (s : State) (y : Reg) (f : Byte) :
    (s.setFlag f).reg y = if y = 0xF then f else s.reg y := reg_setReg s 0xF y f

/-- Register `r` after a block load from register number `k` on: the byte of the list that falls on it, or its old
value. -/
theorem load_getElem (bs : List Byte) (k : Nat) (v : RegFile) (r : Nat) (hr : r < 16) :
    (RegFile.load bs k v)[r] = if h : k ≤ r ∧ r - k < bs.length then bs[r - k]'h.2 else v[r] := by
  induction bs generalizing k v with
  | nil => simp [RegFile.load]
  | cons b bs ih =>
    rw [RegFile.load, ih]
    by_cases hk : k = r
    · subst hk
      simp
    · by_cases hlt : k < r
      · have e : r - k = (r - (k + 1)) + 1 := by omega
        by_cases hb : r - (k + 1) < bs.length
        · rw [dif_pos ⟨by omega, hb⟩, dif_pos ⟨by omega, by simp; omega⟩]
          simp only [e, List.getElem_cons_succ]
        · rw [dif_neg (by omega), dif_neg (by simp; omega)]
          simp [hk]
      · rw [dif_neg (by omega), dif_neg (by omega)]
        simp [hk]

end Sys2Proof.Machine
end

