-- ==== Sys2Proof/Tests/Slice0.lean ====
section
/-! SUPPORT. Tests of one step each, with words and results from 95_test_vectors.md (named in each comment), and for
every obligation with hypotheses a concrete state that meets them. -/

namespace Sys2Proof.Tests

open Sys2Proof Sys2Proof.Machine

/-! ## Small states and what a step leaves -/

/-- The reset state with a word at `pc`, registers and `I` set, and one pending cycle. -/
def sAt (pc w : Word) (rs : List (Reg × Byte) := []) (I : Word := 0) (keys : Keys := 0) (rnd : Byte := 0) : State :=
  let s := rs.foldl (fun s r => s.setReg r.1 r.2) State.reset
  { s with
    pc := pc, I := I, inbox := [.cycle keys rnd],
    mem := Memory.place s.par.font [w.extractLsb' 8 8, w.extractLsb' 0 8] pc.toNat [] }

/-- A state with bytes placed in memory. -/
def withBytes (a : Nat) (bs : List Byte) (s : State) : State :=
  { s with mem := Memory.place s.par.font bs a s.mem }

/-- What is seen of the state a step leaves. -/
def see {α : Type} (f : State → α) (s : State) : Option α :=
  match step s with
  | .next t => some (f t)
  | .fault _ | .refused _ => none

/-- What is seen of the state an instruction leaves. -/
def seeExec {α : Type} (f : State → α) (i : Instr) (s : State) : Option α :=
  match exec i s with
  | .next t => some (f t)
  | .fault _ | .refused _ => none

/-! ## Decoding: one word a constructor, written out from 30_encoding.md R57 -/

theorem test_decode_family0 :
    decodeWord 0b0000_0000_1110_0000 = some .clearScreen ∧ decodeWord 0b0000_0000_1110_1110 = some .ret ∧
    decodeWord 0x0000 = none ∧ decodeWord 0x00E1 = none ∧ decodeWord 0x0123 = none := by decide

theorem test_decode_jumps :
    decodeWord 0b0001_1010_1011_1100 = some (.jump 0xABC) ∧ decodeWord 0b0010_0011_0000_0000 = some (.call 0x300) ∧
    decodeWord 0b1010_0010_1111_0000 = some (.loadIndex 0x2F0) ∧
    decodeWord 0b1011_0011_0000_0000 = some (.jumpPlusV0 0x300) := by decide

theorem test_decode_immediates :
    decodeWord 0b0011_0011_0010_1010 = some (.skipEqImm 3 0x2A) ∧
    decodeWord 0b0100_0011_0010_1010 = some (.skipNeImm 3 0x2A) ∧
    decodeWord 0b0110_1010_1111_1111 = some (.loadImm 0xA 0xFF) ∧
    decodeWord 0b0111_1111_0000_0010 = some (.addImm 0xF 0x02) ∧
    decodeWord 0b1100_0101_0000_1111 = some (.rand 5 0x0F) := by decide

theorem test_decode_family8 :
    decodeWord 0b1000_1010_1011_0000 = some (.loadReg 0xA 0xB) ∧ decodeWord 0b1000_0001_0010_0001 = some (.orReg 1 2) ∧
    decodeWord 0b1000_0001_0010_0010 = some (.andReg 1 2) ∧ decodeWord 0b1000_0001_0010_0011 = some (.xorReg 1 2) ∧
    decodeWord 0b1000_0000_0001_0100 = some (.addReg 0 1) ∧ decodeWord 0b1000_0001_0010_0101 = some (.sub 1 2) ∧
    decodeWord 0b1000_0011_1010_0110 = some (.shr 3) ∧ decodeWord 0b1000_0001_0010_0111 = some (.subn 1 2) ∧
    decodeWord 0b1000_0011_1010_1110 = some (.shl 3) ∧ decodeWord 0x8128 = none ∧ decodeWord 0x812F = none := by decide

theorem test_decode_register_pairs :
    decodeWord 0b0101_0001_0010_1111 = some (.skipEqReg 1 2) ∧ decodeWord 0b1001_0001_0010_0111 = some (.skipNeReg 1 2) ∧
    decodeWord 0b1101_0001_0010_0101 = some (.draw 1 2 5) := by decide

theorem test_decode_keys_and_timers :
    decodeWord 0b1110_0010_1001_1110 = some (.skipKeyPressed 2) ∧
    decodeWord 0b1110_0010_1010_0001 = some (.skipKeyReleased 2) ∧
    decodeWord 0b1111_0100_0000_0111 = some (.loadDelay 4) ∧ decodeWord 0b1111_0000_0000_1010 = some (.waitKey 0) ∧
    decodeWord 0b1111_0000_0001_0101 = some (.setDelay 0) ∧ decodeWord 0b1111_0001_0001_1000 = some (.setSound 1) ∧
    decodeWord 0xE29F = none := by decide

theorem test_decode_index_and_memory :
    decodeWord 0b1111_0010_0001_1110 = some (.addIndex 2) ∧ decodeWord 0b1111_0001_0010_1001 = some (.indexToGlyph 1) ∧
    decodeWord 0b1111_0100_0011_0011 = some (.storeBcd 4) ∧ decodeWord 0b1111_0010_0101_0101 = some (.regDump 2) ∧
    decodeWord 0b1111_0001_0110_0101 = some (.regLoad 1) ∧ decodeWord 0xF175 = none ∧ decodeWord 0xFFFF = none := by decide

theorem test_decode_bytes :
    decode [0x12, 0x34, 0x56] = .ok (.jump 0x234, [0x56]) ∧ decode [0x12] = .error .tooFewBytes ∧
    decode [0x81, 0x28] = .error (.undefinedWord 0x8128) ∧ decodeTableWord 16 0x1234 = some (.jump 0x234) ∧
    decodeTableWord 16 0x8128 = none := by decide

/-! ## Well-formedness refuses what the encoding does not admit -/

theorem test_wellFormed_draw : (Instr.draw 1 2 15).wellFormed = true ∧ (Instr.draw 1 2 16).wellFormed = false := by decide

theorem test_imageFits : imageFits (List.replicate 3584 0) = true ∧ imageFits (List.replicate 3585 0) = false := by
  unfold imageFits
  rw [List.length_replicate, List.length_replicate]
  decide

/-! ## Control flow (95_test_vectors.md 2.2) -/

theorem test_ret_pops_top :
    see (fun t => (t.pc, t.stack)) { sAt 0x300 0x0FEE with stack := [0x0204, 0x0999] } = some (0x0999, [0x0204]) := by
  decide

theorem test_ret_empty_faults : see (fun t => t.report) (sAt 0x200 0x00EE) = some (.faulted .stackUnderflow) := by decide

theorem test_jump_odd : see (fun t => t.pc) (sAt 0x200 0x1201) = some 0x0201 := by decide

theorem test_call_pushes :
    see (fun t => (t.pc, t.stack)) { sAt 0xFFE 0x2ABC with stack := [0x0202] } = some (0x0ABC, [0x0202, 0x1000]) := by
  decide

theorem test_call_full_faults :
    see (fun t => t.report)
      { sAt 0x200 0x2200 with stack := [0x202, 0x202], par := { Config.defaultParams with stackDepth := some 2 } } =
      some (.faulted .stackOverflow) := by decide

theorem test_skipEqImm :
    see (fun t => t.pc) (sAt 0x210 0x332A [(3, 0x2A)]) = some 0x0214 ∧
    see (fun t => t.pc) (sAt 0x210 0x332A [(3, 0x2B)]) = some 0x0212 := by decide

theorem test_skipNeImm :
    see (fun t => t.pc) (sAt 0x210 0x432A [(3, 0x2A)]) = some 0x0212 ∧
    see (fun t => t.pc) (sAt 0x210 0x432A) = some 0x0214 := by decide

theorem test_skipEqReg :
    see (fun t => t.pc) (sAt 0x220 0x512F [(1, 7), (2, 7)]) = some 0x0224 ∧
    see (fun t => t.pc) (sAt 0x220 0x5120 [(1, 7), (2, 8)]) = some 0x0222 := by decide

theorem test_skipNeReg :
    see (fun t => t.pc) (sAt 0x220 0x9127 [(1, 7), (2, 8)]) = some 0x0224 ∧
    see (fun t => t.pc) (sAt 0x220 0x9330 [(3, 1)]) = some 0x0222 := by decide

theorem test_jumpPlusV0 :
    see (fun t => t.pc) (sAt 0x200 0xB300 [(0, 4), (3, 0x50)]) = some 0x0304 ∧
    see (fun t => t.pc) (sAt 0x200 0xBFFF [(0, 0xFF)]) = some 0x10FE := by decide

/-! ## Registers, arithmetic and logic (95_test_vectors.md 2.3) -/

theorem test_loadImm : see (fun t => (t.reg 0xF, t.pc)) (sAt 0x200 0x6F07 [(0xF, 1)]) = some (7, 0x202) := by decide

theorem test_addImm_no_flag :
    see (fun t => (t.reg 0, t.reg 0xF)) (sAt 0x200 0x7001 [(0, 0xFF), (0xF, 0x55)]) = some (0, 0x55) := by decide

theorem test_loadReg : see (fun t => t.reg 0xA) (sAt 0x200 0x8AB0 [(0xA, 1), (0xB, 0x77)]) = some 0x77 := by decide

theorem test_orReg :
    see (fun t => (t.reg 1, t.reg 0xF)) (sAt 0x200 0x8121 [(1, 0x0F), (2, 0xF0), (0xF, 7)]) = some (0xFF, 7) := by decide

theorem test_andReg :
    see (fun t => (t.reg 1, t.reg 0xF)) (sAt 0x200 0x8122 [(1, 0x3C), (2, 0x0F), (0xF, 7)]) = some (0x0C, 7) := by decide

theorem test_xorReg :
    see (fun t => (t.reg 1, t.reg 0xF)) (sAt 0x200 0x8123 [(1, 0xFF), (2, 0x0F), (0xF, 7)]) = some (0xF0, 7) := by decide

theorem test_addReg :
    see (fun t => (t.reg 1, t.reg 0xF)) (sAt 0x200 0x8124 [(1, 0xFE), (2, 1), (0xF, 9)]) = some (0xFF, 0) ∧
    see (fun t => (t.reg 1, t.reg 0xF)) (sAt 0x200 0x81F4 [(1, 0x10), (0xF, 0xF5)]) = some (0x05, 1) := by decide

theorem test_addReg_flag_register : see (fun t => t.reg 0xF) (sAt 0x200 0x8F14 [(1, 0x10), (0xF, 0xF5)]) = some 5 := by
  decide

theorem test_sub :
    see (fun t => (t.reg 1, t.reg 0xF)) (sAt 0x200 0x8125 [(1, 7), (2, 7), (0xF, 1)]) = some (0, 0) ∧
    see (fun t => (t.reg 1, t.reg 0xF)) (sAt 0x200 0x81F5 [(1, 5), (0xF, 3)]) = some (4, 1) := by decide

theorem test_sub_flag_register : see (fun t => t.reg 0xF) (sAt 0x200 0x8F15 [(1, 9), (0xF, 2)]) = some 0xF7 := by decide

theorem test_shr :
    see (fun t => (t.reg 3, t.reg 0xF, t.reg 0xA)) (sAt 0x200 0x83A6 [(3, 1), (0xA, 0xF0)]) = some (0, 1, 0xF0) ∧
    see (fun t => t.reg 0xF) (sAt 0x200 0x8F06 [(0xF, 0xFF)]) = some 0 := by decide

theorem test_subn :
    see (fun t => (t.reg 1, t.reg 0xF)) (sAt 0x200 0x8127 [(1, 1), (2, 0x10)]) = some (0x0F, 1) ∧
    see (fun t => (t.reg 1, t.reg 0xF)) (sAt 0x200 0x81F7 [(1, 5), (0xF, 3)]) = some (0xFB, 0) := by decide

theorem test_subn_flag_register : see (fun t => t.reg 0xF) (sAt 0x200 0x8F17 [(1, 9), (0xF, 2)]) = some 8 := by decide

theorem test_shl :
    see (fun t => (t.reg 3, t.reg 0xF)) (sAt 0x200 0x830E [(3, 0x41)]) = some (0x82, 0) ∧
    see (fun t => t.reg 0xF) (sAt 0x200 0x8F0E [(0xF, 0x80)]) = some 2 := by decide

theorem test_rand : see (fun t => t.reg 5) (sAt 0x200 0xC50F [(5, 0x99)] 0 0 0xA7) = some 7 := by decide

/-! ## Index register and memory (95_test_vectors.md 2.4) -/

theorem test_loadIndex : see (fun t => t.I) (sAt 0x200 0xA2F0 [] 0x0111) = some 0x02F0 := by decide

theorem test_addIndex :
    see (fun t => (t.I, t.reg 0xF)) (sAt 0x200 0xF21E [(2, 1), (0xF, 9)] 0x0FFF) = some (0x1000, 9) ∧
    see (fun t => (t.I, t.reg 0xF)) (sAt 0x200 0xFF1E [(0xF, 0xFF)] 0xFF01) = some (0, 0xFF) := by decide

theorem test_indexToGlyph :
    see (fun t => t.I) (sAt 0x200 0xF129 [(1, 0x0F)]) = some 0x004B ∧
    see (fun t => t.I) (sAt 0x200 0xF129 [(1, 0xFF)]) = some 0x04FB := by decide

theorem test_storeBcd :
    see (fun t => [t.byteAt 0xFFC, t.byteAt 0xFFD, t.byteAt 0xFFE, t.byteAt 0xFFF]) (sAt 0x200 0xF433 [(4, 156)] 0xFFD) =
      some [0, 1, 5, 6] := by decide

theorem test_storeBcd_faults :
    see (fun t => t.report) (sAt 0x200 0xF433 [] 0x0FFE) = some (.faulted (.outOfBounds 0x1000)) ∧
    see (fun t => t.report) (sAt 0x200 0xF433 [] 0xFFFF) = some (.faulted (.outOfBounds 0xFFFF)) := by decide

theorem test_regDump :
    see (fun t => ([t.byteAt 0x3FF, t.byteAt 0x400, t.byteAt 0x401, t.byteAt 0x402, t.byteAt 0x403], t.I))
      (sAt 0x200 0xF255 [(0, 0x11), (1, 0x22), (2, 0x33), (3, 0x44)] 0x400) =
      some ([0, 0x11, 0x22, 0x33, 0], 0x400) := by decide

theorem test_regDump_faults :
    see (fun t => t.report) (sAt 0x200 0xFF55 [] 0x0FF1) = some (.faulted (.outOfBounds 0x1000)) := by decide

theorem test_regLoad :
    see (fun t => [t.reg 0, t.reg 1, t.reg 2, t.reg 3])
      (withBytes 0x400 [0x11, 0x22, 0x33, 0x44] (sAt 0x200 0xF265 [(3, 0x99)] 0x400)) =
      some [0x11, 0x22, 0x33, 0x99] := by decide

theorem test_regLoad_glyph :
    see (fun t => [t.reg 0, t.reg 1, t.reg 2, t.reg 3, t.reg 4, t.reg 5]) (sAt 0x200 0xF465) =
      some [0xF0, 0x90, 0x90, 0x90, 0xF0, 0] := by decide

/-! ## Display (95_test_vectors.md 2.5 and S4) -/

theorem test_clearScreen :
    see (fun t => (pixel t.fb 63 31, t.reg 0xF, t.report))
      { sAt 0x200 0x00E0 [(0xF, 7)] with fb := togglePixel 63 31 clearedFb } =
      some (false, 7, .continued true) := by decide

theorem test_draw_wraps :
    see (fun t => (pixel t.fb 63 31, pixel t.fb 0 31, pixel t.fb 1 31, pixel t.fb 0 0, t.reg 0xF, t.report))
      (withBytes 0x300 [0xC0] (sAt 0x200 0xD121 [(1, 63), (2, 31)] 0x300)) =
      some (true, true, false, false, 0, .continued true) := by decide

theorem test_draw_collides :
    see (fun t => (pixel t.fb 3 4, t.reg 0xF))
      { withBytes 0x300 [0x80] (sAt 0x200 0xDF21 [(0xF, 3), (2, 4)] 0x300) with fb := togglePixel 3 4 clearedFb } =
      some (false, 1) := by decide

/-! ## Timers and keypad (95_test_vectors.md 2.6) -/

theorem test_skipKeyPressed :
    see (fun t => t.pc) (sAt 0x230 0xE29E [(2, 15)] 0 0x8000) = some 0x0234 ∧
    see (fun t => t.report) (sAt 0x230 0xE29E [(2, 16)] 0 0xFFFF) = some (.faulted (.keyIndexOutOfRange 0x10)) := by
  decide

theorem test_skipKeyReleased :
    see (fun t => t.pc) (sAt 0x230 0xE2A1 [(2, 5)] 0 0xFFDF) = some 0x0234 ∧
    see (fun t => t.pc) (sAt 0x230 0xE2A1 [(2, 5)] 0 0x0020) = some 0x0232 := by decide

theorem test_loadDelay : see (fun t => (t.reg 4, t.DT)) { sAt 0x230 0xF407 with DT := 3 } = some (3, 3) := by decide

theorem test_waitKey :
    see (fun t => (t.run, t.prevKeys, t.reg 3, t.pc)) (sAt 0x240 0xF30A [] 0 0x0002) =
      some (.awaitingKey 3, 0x0002, 0, 0x0242) := by decide

theorem test_waitKey_resumes :
    see (fun t => (t.run, t.prevKeys, t.reg 3, t.pc))
      { sAt 0x242 0x0000 [] 0 0x0012 with run := .awaitingKey 3, prevKeys := 0x0002 } =
      some (.running, 0x0012, 4, 0x0242) := by decide

theorem test_setDelay : see (fun t => t.DT) { sAt 0x230 0xF015 with DT := 9 } = some 0 := by decide

theorem test_setSound : see (fun t => (t.ST, t.soundActive)) (sAt 0x230 0xF118 [(1, 2)]) = some (2, true) := by decide

theorem test_tick :
    see (fun t => (t.DT, t.ST, t.inbox)) { State.reset with ST := 7, inbox := [.tick] } = some (0, 6, []) := by decide

/-! ## The cycle and reset (95_test_vectors.md 2.1, 2.7) -/

theorem test_undefined_word :
    see (fun t => (t.pc, t.report, t.V == State.reset.V)) (sAt 0x206 0x8128) = some (0x0208, .continued false, true) := by
  decide

theorem test_halt_at_last_byte :
    see (fun t => (t.pc, t.report)) { State.reset with pc := 0x0FFF, inbox := [.cycle 0 0] } = some (0x0FFF, .halted) := by
  decide

theorem test_reset_loads :
    see (fun t => (t.byteAt 0x200, t.byteAt 0x201, t.byteAt 0x202, t.byteAt 0, t.pc, t.run))
      { sAt 0x300 0 [(1, 1)] with inbox := [.reset [0x12, 0x00]], run := .halted } =
      some (0x12, 0x00, 0, 0xF0, 0x200, .running) := by decide

theorem test_reset_canonical :
    Memory.write Config.defaultFont [] 0 0xF0 = [] ∧ Memory.write Config.defaultFont [(0, 1)] 0 0xF0 = [] ∧
    Memory.write Config.defaultFont [(3, 1), (9, 2)] 5 7 = [(3, 1), (5, 7), (9, 2)] := by decide

/-- The word placed for the next step is the one it runs, as the first instruction after reset. -/
theorem test_withFetchWord :
    see (fun t => (t.pc, t.reg 5)) (State.reset.withFetchWord 16 0x6533) = some (0x0202, 0x33) ∧
    see (fun t => t.run) (State.reset.withFetchWord 16 0xF30A) = some (.awaitingKey 3) := by decide

/-! ## Witnesses: for each obligation with hypotheses, a state and operands that meet them -/

/-- The fixed word of each row of R57 has its own fixed bits. -/
theorem witness_EveryTableRowDecodesToItsInstruction :
    (0x00E0 : Word) &&& 0xF0FF = 0x00E0 ∧ (0x0FEE : Word) &&& 0xF0FF = 0x00EE ∧ (0x1FFF : Word) &&& 0xF000 = 0x1000 ∧
    (0x2000 : Word) &&& 0xF000 = 0x2000 ∧ (0x3FFF : Word) &&& 0xF000 = 0x3000 ∧ (0x4000 : Word) &&& 0xF000 = 0x4000 ∧
    (0x5FFF : Word) &&& 0xF000 = 0x5000 ∧ (0x6000 : Word) &&& 0xF000 = 0x6000 ∧ (0x7FFF : Word) &&& 0xF000 = 0x7000 ∧
    (0x8FF0 : Word) &&& 0xF00F = 0x8000 ∧ (0x8001 : Word) &&& 0xF00F = 0x8001 ∧ (0x8FF2 : Word) &&& 0xF00F = 0x8002 ∧
    (0x8003 : Word) &&& 0xF00F = 0x8003 ∧ (0x8FF4 : Word) &&& 0xF00F = 0x8004 ∧ (0x8005 : Word) &&& 0xF00F = 0x8005 ∧
    (0x8FF6 : Word) &&& 0xF00F = 0x8006 ∧ (0x8007 : Word) &&& 0xF00F = 0x8007 ∧ (0x8FFE : Word) &&& 0xF00F = 0x800E ∧
    (0x9FFF : Word) &&& 0xF000 = 0x9000 ∧ (0xA000 : Word) &&& 0xF000 = 0xA000 ∧ (0xBFFF : Word) &&& 0xF000 = 0xB000 ∧
    (0xC000 : Word) &&& 0xF000 = 0xC000 ∧ (0xDFFF : Word) &&& 0xF000 = 0xD000 ∧ (0xEF9E : Word) &&& 0xF0FF = 0xE09E ∧
    (0xE0A1 : Word) &&& 0xF0FF = 0xE0A1 ∧ (0xFF07 : Word) &&& 0xF0FF = 0xF007 ∧ (0xF00A : Word) &&& 0xF0FF = 0xF00A ∧
    (0xFF15 : Word) &&& 0xF0FF = 0xF015 ∧ (0xF018 : Word) &&& 0xF0FF = 0xF018 ∧ (0xFF1E : Word) &&& 0xF0FF = 0xF01E ∧
    (0xF029 : Word) &&& 0xF0FF = 0xF029 ∧ (0xFF33 : Word) &&& 0xF0FF = 0xF033 ∧ (0xF055 : Word) &&& 0xF0FF = 0xF055 ∧
    (0xFF65 : Word) &&& 0xF0FF = 0xF065 := by decide

/-- A word on each side of every clause. -/
theorem witness_UndefinedWordsAreExactlyThoseListed :
    decodeWord 0x0000 = none ∧ decodeWord 0x0FEE = some .ret ∧ decodeWord 0x8FFF = none ∧
    decodeWord 0x8FFE = some (.shl 0xF) ∧ decodeWord 0xE09F = none ∧ decodeWord 0xE09E = some (.skipKeyPressed 0) ∧
    decodeWord 0xF064 = none ∧ decodeWord 0xF065 = some (.regLoad 0) := by decide

theorem witness_DecodedInstructionsAreWellFormed : decode [0xD1, 0x2F] = .ok (.draw 1 2 15, []) := by decide

theorem witness_DecodeOfEncodeIsTheInstruction :
    (Instr.draw 0xF 0 15).wellFormed = true ∧ (Instr.draw 0 0xF 0).wellFormed = true ∧ Instr.ret.wellFormed = true := by
  decide

/-- A started, running machine with a pending cycle at the last address a fetch may start from. -/
theorem witness_StepRunsTheDecodedInstruction :
    let s := sAt 0xFFE 0x6A01
    s.inbox = [.cycle 0 0] ∧ s.started = true ∧ s.run = .running ∧ s.pc.toNat ≤ 0xFFE ∧
    decode [s.byteAt s.pc.toNat, s.byteAt (s.pc.toNat + 1)] = .ok (.loadImm 0xA 1, []) := by decide

/-- An instruction, an undefined word and a halting fetch at the boundary addresses, a wait, an ended run; each with no
event pending. A sample has a fresh key, or none. -/
theorem witness_StepWithoutAnEventTicksAndRuns :
    let s := { sAt 0xFFE 0xF107 with inbox := [], DT := 3 }
    let u := { sAt 0xFFE 0x8128 with inbox := [] }
    s.inbox = [] ∧ s.started = true ∧ s.run = .running ∧ s.pc.toNat ≤ 0xFFE ∧
    decode [s.byteAt s.pc.toNat, s.byteAt (s.pc.toNat + 1)] = .ok (.loadDelay 1, []) ∧
    u.inbox = [] ∧ u.started = true ∧ u.run = .running ∧ u.pc.toNat ≤ 0xFFE ∧
    decodeWord (wordOfBytes (u.byteAt u.pc.toNat) (u.byteAt (u.pc.toNat + 1))) = none ∧
    0xFFF ≤ ({ State.reset with pc := 0xFFF } : State).pc.toNat ∧
    ({ State.reset with run := .awaitingKey 3 } : State).run = .awaitingKey 3 ∧
    (0x0002 : Keys) &&& ~~~0x0002 = 0 ∧ (0x0012 : Keys) &&& ~~~0x0002 ≠ 0 ∧
    ({ State.reset with run := .halted } : State).ended = true ∧ State.reset.inbox = [] ∧ State.reset.started = true := by
  decide

theorem witness_UndefinedWordOnlyAdvancesPc :
    let s := sAt 0xFFE 0x8128
    s.inbox = [.cycle 0 0] ∧ s.started = true ∧ s.run = .running ∧ s.pc.toNat ≤ 0xFFE ∧
    decodeWord (wordOfBytes (s.byteAt s.pc.toNat) (s.byteAt (s.pc.toNat + 1))) = none := by decide

theorem witness_FetchOutsideMemoryHalts :
    let s := { State.reset with pc := 0xFFF, inbox := [.cycle 0 0] }
    s.inbox = [.cycle 0 0] ∧ s.started = true ∧ s.run = .running ∧ 0xFFF ≤ s.pc.toNat := by decide

theorem witness_EndedMachineIgnoresCycles :
    let s := { State.reset with run := .halted, inbox := [.cycle 1 2] }
    let u := { State.reset with run := .faulted .stackUnderflow, inbox := [.cycle 1 2] }
    s.inbox = [.cycle 1 2] ∧ s.started = true ∧ s.ended = true ∧ u.inbox = [.cycle 1 2] ∧ u.started = true ∧
    u.ended = true := by decide

theorem witness_OnlyResetLeavesAFault :
    let s := { State.reset with run := .faulted (.outOfBounds 4096), inbox := [.tick] }
    s.run = .faulted (.outOfBounds 4096) ∧ s.started = true ∧ (∀ image rest, s.inbox ≠ .reset image :: rest) :=
  ⟨rfl, rfl, fun _ _ h => by cases h⟩

theorem witness_OnlyResetLeavesAHaltedRun :
    let s := { State.reset with run := .halted, DT := 1 }
    s.run = .halted ∧ s.started = true ∧ (∀ image rest, s.inbox ≠ .reset image :: rest) :=
  ⟨rfl, rfl, fun _ _ h => by cases h⟩

theorem witness_TickCountsBothTimersDown :
    let s := { State.reset with DT := 1, inbox := [.tick] }
    s.inbox = [.tick] ∧ s.started = true := by decide

theorem witness_PendingTicksAddUpAndClamp :
    let s := { State.reset with DT := 5, inbox := List.replicate 6 HostEvent.tick ++ [HostEvent.cycle 0 0] }
    s.inbox = List.replicate 6 HostEvent.tick ++ [.cycle 0 0] ∧ s.started = true := by decide

/-- Both clauses: the longest image that fits and the shortest that does not. -/
theorem witness_ResetLoadsTheImageOrRefusesIt :
    (List.replicate 3584 (0xFF : Byte)).length ≤ 3584 ∧ 3584 < (List.replicate 3585 (0xFF : Byte)).length ∧
    ∀ image, ({ State.reset with inbox := [.reset image] } : State).inbox = [.reset image] :=
  ⟨by rw [List.length_replicate], by rw [List.length_replicate]; decide, fun _ => rfl⟩

/-- The clauses on Memory at their boundaries: the last glyph byte, the last image byte, and zeros beside both. -/
theorem witness_ResetRebuildsTheWholeState :
    let s := { withBytes 0x50 [7] State.reset with
      run := .faulted .stackOverflow, inbox := [.reset [0x12, 0x34], .tick] }
    s.inbox = [.reset [0x12, 0x34], .tick] ∧ [(0x12 : Byte), 0x34].length ≤ 3584 ∧
    see (fun t => [t.byteAt 79, t.byteAt 80, t.byteAt 0x1FF, t.byteAt 0x201, t.byteAt 0x202]) s =
      some [0x80, 0, 0, 0x34, 0] := by decide

/-- Both clauses: a fresh press beside a held key, and the held key alone. -/
theorem witness_WaitingMachineResumesOnAFreshPress :
    let s := { State.reset with run := .awaitingKey 3, prevKeys := 0x0002, inbox := [.cycle 0x8002 0] }
    s.inbox = [.cycle 0x8002 0] ∧ s.started = true ∧ s.run = .awaitingKey 3 ∧ (0x8002 : Keys) &&& ~~~s.prevKeys ≠ 0 ∧
    (0x0002 : Keys) &&& ~~~s.prevKeys = 0 := by decide

/-- The invariant at its bounds: the largest `pc`, the two extreme stack entries, a full stack. -/
def sBounds : State :=
  { State.reset with
    pc := 0x10FE, stack := [0x0002, 0x1000], inbox := [.cycle 0 0],
    par := { Config.defaultParams with stackDepth := some 2 }, mem := [(0, 1), (4095, 1)] }

theorem sBounds_inBounds : InBounds sBounds where
  pc_le := by decide
  entries a h := by
    have e : a = 0x0002 ∨ a = 0x1000 := by simpa [sBounds] using h
    rcases e with rfl | rfl <;> decide
  depth_le d h := by
    have e : sBounds.par.stackDepth = some 2 := rfl
    have l : sBounds.depth = 2 := by decide
    rw [e] at h
    rw [l, Option.some.inj h]
  halted h := by
    have e : sBounds.run = .running := rfl
    rw [e] at h
    cases h

theorem witness_EveryStepKeepsTheInvariant : Inv sBounds ∧ see (fun t => t.run) sBounds = some .halted :=
  ⟨⟨by decide, fun _ _ => sBounds_inBounds⟩, by decide⟩

theorem witness_StartedMachineAlwaysHasANextState :
    let s := { State.reset with started := false, inbox := [.tick] }
    State.reset.started = true ∧ s.started = false ∧ (∀ image rest, s.inbox ≠ .reset image :: rest) :=
  ⟨rfl, rfl, fun _ _ h => by cases h⟩

/-- A running machine, an instruction that takes each of the four faults at the boundary of its table row, and the
nearest one that does not. -/
theorem witness_InstructionsFaultExactlyAsTheTableSays :
    State.reset.run = .running ∧ faultOf .ret State.reset = some .stackUnderflow ∧
    faultOf .ret sBounds = none ∧ faultOf (.call 0) sBounds = some .stackOverflow ∧ faultOf (.call 0) State.reset = none ∧
    faultOf (.draw 0 0 1) { State.reset with I := 0xFFF } = none ∧
    faultOf (.draw 0 0 2) { State.reset with I := 0xFFF } = some (.outOfBounds 4096) ∧
    faultOf (.draw 0 0 0) { State.reset with I := 0xFFFF } = none ∧
    faultOf (.storeBcd 0) { State.reset with I := 0xFFD } = none ∧
    faultOf (.storeBcd 0) { State.reset with I := 0xFFE } = some (.outOfBounds 4096) ∧
    faultOf (.regDump 0xF) { State.reset with I := 0xFF0 } = none ∧
    faultOf (.regLoad 0xF) { State.reset with I := 0xFF1 } = some (.outOfBounds 4096) ∧
    faultOf (.regLoad 0) { State.reset with I := 0xFFFF } = some (.outOfBounds 0xFFFF) ∧
    faultOf (.skipKeyPressed 1) (State.reset.setReg 1 0x0F) = none ∧
    faultOf (.skipKeyReleased 1) (State.reset.setReg 1 0x10) = some (.keyIndexOutOfRange 0x10) := by decide

theorem witness_UnderflowComesOnlyFromReturnOnEmptyStack :
    State.reset.stack = [] ∧ State.reset.isFaulted = false ∧
    see (fun t => t.run) (sAt 0x200 0x00EE) = some (.faulted .stackUnderflow) := by decide

theorem witness_OverflowComesOnlyFromCallOnFullStack :
    let s := { sAt 0x200 0x2300 with par := { Config.defaultParams with stackDepth := some 0 } }
    s.par.stackDepth = some 0 ∧ s.stack.length = 0 ∧ s.isFaulted = false ∧
    see (fun t => t.run) s = some (.faulted .stackOverflow) := by decide

/-- Both sides of the equivalence: a display instruction, one that faults, and one that is none. -/
theorem witness_RedrawExactlyForDisplayInstructions :
    State.reset.redraw = false ∧ State.reset.run = .running ∧
    seeExec (fun t => t.redraw) .clearScreen State.reset = some true ∧
    seeExec (fun t => t.redraw) (.draw 0 0 1) { State.reset with I := 0x1000 } = some false ∧
    seeExec (fun t => t.redraw) (.loadImm 0 1) State.reset = some false := by decide

theorem witness_NoStepChangesTheParameters :
    see (fun t => t.par == sBounds.par) { sBounds with inbox := [.reset [0x12]] } = some true := by decide

theorem witness_RandomByteReachesOnlyRand :
    (∀ x nn, Instr.setDelay 1 ≠ .rand x nn) ∧ seeExec (fun t => t.DT) (.setDelay 1) State.reset = some 0 :=
  ⟨fun _ _ h => (by cases h), by decide⟩

/-- `load-imm 1,2` meets the hypotheses of the six statements about what an instruction leaves alone. -/
theorem witness_OnlyTheNamedInstructionsChangeIt :
    let i := Instr.loadImm 1 2
    faultOf i State.reset = none ∧ (∀ x, i ≠ .storeBcd x) ∧ (∀ x, i ≠ .regDump x) ∧ i ≠ .clearScreen ∧
    (∀ x y n, i ≠ .draw x y n) ∧ (∀ nnn, i ≠ .loadIndex nnn) ∧ (∀ x, i ≠ .addIndex x) ∧ (∀ x, i ≠ .indexToGlyph x) ∧
    (∀ nnn, i ≠ .call nnn) ∧ i ≠ .ret ∧ (∀ nnn, i ≠ .jump nnn) ∧ (∀ nnn, i ≠ .jumpPlusV0 nnn) ∧
    (∀ x y, i ≠ .addReg x y) ∧ (∀ x y, i ≠ .sub x y) ∧ (∀ x y, i ≠ .subn x y) ∧ (∀ x, i ≠ .shr x) ∧ (∀ x, i ≠ .shl x) ∧
    (∀ nn, i ≠ .loadImm 0xF nn) ∧ (∀ nn, i ≠ .addImm 0xF nn) ∧ (∀ y, i ≠ .loadReg 0xF y) ∧ (∀ y, i ≠ .orReg 0xF y) ∧
    (∀ y, i ≠ .andReg 0xF y) ∧ (∀ y, i ≠ .xorReg 0xF y) ∧ (∀ nn, i ≠ .rand 0xF nn) ∧ i ≠ .loadDelay 0xF ∧
    i ≠ .regLoad 0xF := by simp [faultOf]

/-- Both clauses: an entry to pop, and none. -/
theorem witness_ReturnPopsTheMostRecentEntry :
    sBounds.stack = [0x0002] ++ [0x1000] ∧ State.reset.stack = [] := by decide

/-- Both clauses: room for one more entry, and none. -/
theorem witness_CallPushesTheAdvancedPc :
    ({ sBounds with stack := [0x0202] } : State).par.stackDepth ≠ some 1 ∧
    sBounds.par.stackDepth = some sBounds.stack.length ∧ State.reset.par.stackDepth ≠ some State.reset.stack.length := by
  decide

theorem witness_ReturnUndoesCall :
    State.reset.par.stackDepth ≠ some State.reset.stack.length ∧
    seeExec (fun t => t.stack) (.call 0x300) { State.reset with pc := 0x202 } =
      some ({ State.reset with pc := 0x300, stack := [0x202] } : State).stack := by decide

/-- Each skip on both sides of its condition. -/
theorem witness_CompareSkipsAddTwoToPc :
    State.reset.reg 1 = 0 ∧ State.reset.reg 1 ≠ 1 ∧ State.reset.reg 1 = State.reset.reg 2 ∧
    (State.reset.setReg 1 1).reg 1 ≠ (State.reset.setReg 1 1).reg 2 := by decide

/-- The flag clauses hold for `x` other than 0xF, the last one for 0xF. -/
theorem witness_FlagClauses : (0xE : Reg) ≠ 0xF ∧ (0xF : Reg) = 0xF := by decide

theorem witness_StoreBcdWritesThreeDigits :
    Memory.wf State.reset.par.font State.reset.mem ∧ ({ State.reset with I := 0xFFD } : State).I.toNat ≤ 0xFFD := by decide

theorem witness_RegDumpWritesTheRegistersInOrder :
    Memory.wf State.reset.par.font State.reset.mem ∧
    ({ State.reset with I := 0xFF0 } : State).I.toNat + (0xF : Reg).toNat ≤ 0xFFF ∧ (0xF : Reg) ≤ 0xF := by decide

theorem witness_RegLoadReadsTheRegistersInOrder :
    ({ State.reset with I := 0xFFF } : State).I.toNat + (0 : Reg).toNat ≤ 0xFFF ∧ (0 : Reg) ≤ 0 ∧ (0 : Reg) < 1 := by decide

/-- Each clause at the edge of Memory, and a running machine whose step takes the fault. -/
theorem witness_MemWriteChangesOneByteOrFaults :
    4096 ≤ 4096 ∧ Memory.wf State.reset.par.font State.reset.mem ∧ 4095 < 4096 ∧
    (sAt 0xFFE 0xF033 [] 0xFFE).isFaulted = false ∧
    see (fun t => t.run) (sAt 0xFFE 0xF033 [] 0xFFE) = some (.faulted (.outOfBounds 4096)) := by decide

theorem witness_StoreIsSeenByTheNextFetch :
    let s := { State.reset with pc := 0xFFE, I := 0xFFE }
    Memory.wf s.par.font s.mem ∧ (1 : Reg) ≤ 1 ∧ s.I = s.pc ∧ s.I.toNat + (1 : Reg).toNat ≤ 0xFFF := by decide

/-- Points on one pixel after reduction, and points that are not. -/
theorem witness_TogglePixelFlipsOneReducedPoint :
    (64 % 64 = 0 % 64 ∧ 32 % 32 = 0 % 32) ∧ ¬(63 % 64 = 0 % 64 ∧ 32 % 32 = 0 % 32) := by decide

/-- The most rows at the last place they fit; a covered pixel on the wrapped edge, and one that is not covered. -/
theorem witness_DrawXorsTheSpriteAndReportsCollision :
    let s := withBytes 0xFF1 [0xC0] (sAt 0x200 0xD12F [(1, 63), (2, 31)] 0xFF1)
    15 ≤ 15 ∧ (15 = 0 ∨ s.I.toNat + 15 ≤ 4096) ∧ Covered 1 2 15 s 0 31 ∧ ¬Covered 1 2 15 s 2 31 ∧
    (0 = 0 ∨ ({ s with I := 0xFFFF } : State).I.toNat + 0 ≤ 4096) ∧ pixel s.fb 0 31 = false := by
  refine ⟨by decide, by decide, ⟨0, by decide, 1, by decide, by decide⟩, ?_, by decide, by decide⟩
  rintro ⟨r, hr, c, hc, h, hx, hy⟩
  have h0 : r = 0 := by
    have : (31 + r) % 32 = 31 := hy
    omega
  have h3 : c = 3 := by
    have : (63 + c) % 64 = 2 := hx
    omega
  subst h0 h3
  exact absurd h (by decide)

theorem witness_DrawTwiceRestoresTheFramebuffer :
    (1 : Reg) ≠ 0xF ∧ (0xE : Reg) ≠ 0xF ∧ (15 = 0 ∨ ({ State.reset with I := 0xFF1 } : State).I.toNat + 15 ≤ 4096) := by
  decide

theorem witness_TimersHaveOnlyTheirThreeInstructions :
    let i := Instr.loadImm 1 2
    faultOf i State.reset = none ∧ (∀ x, i ≠ .setDelay x) ∧ (∀ x, i ≠ .setSound x) ∧ (∀ x, i ≠ .loadDelay x) := by
  simp [faultOf]

/-- Both clauses at their boundary. -/
theorem witness_KeySkipsFollowTheKeyLevel :
    ((State.reset.setReg 1 0x0F).reg 1).toNat ≤ 0x0F ∧ 0x0F < ((State.reset.setReg 1 0x10).reg 1).toNat := by decide

theorem witness_WaitKeySuspendsUntilAFreshPress : State.reset.started = true := rfl

end Sys2Proof.Tests
end

section
/-! PROOFS. The parameters of a machine through every operation, every instruction, every cycle and every step
(00_scope.md R7). -/

namespace Sys2Proof.Machine

/-! ## Operations -/

theorem push_par {v : Word} {s t : State} (h : push v s = .ok t) : t.par = s.par := by
  unfold push at h
  split at h
  · cases h
  · cases h; rfl

theorem pop_par {s t : State} {a : Word} (h : pop s = .ok (a, t)) : t.par = s.par := by
  unfold pop at h
  split at h
  · cases h
  · cases h; rfl

theorem writeByte_par {a : Nat} {v : Byte} {s t : State} (h : writeByte a v s = .ok t) : t.par = s.par := by
  unfold writeByte at h
  split at h
  · cases h
  · cases h; rfl

theorem writeBytes_par {bs : List Byte} {a : Nat} {s t : State} (h : writeBytes bs a s = .ok t) : t.par = s.par := by
  induction bs generalizing a s with
  | nil => cases h; rfl
  | cons b bs ih =>
    simp only [writeBytes] at h
    split at h
    · cases h
    · next s' hb => exact (ih h).trans (writeByte_par hb)

/-! ## The ends of an instruction -/

/-- An instruction that cannot fault keeps the parameters when its result does. -/
theorem next_par {s t u : State} (h : Host.Outcome.next (φ := Fault) (ρ := Refusal) u = .next t)
    (hu : u.par = s.par) : t.par = s.par := by
  cases h; exact hu

/-- An instruction that may fault keeps the parameters when each result of its operations does: a raised fault keeps
them by itself. -/
theorem complete_par {s t : State} {r : Except Fault State} (h : complete s r = .next t)
    (hr : ∀ u, r = .ok u → u.par = s.par) : t.par = s.par := by
  cases r with
  | ok u => exact next_par h (hr u rfl)
  | error c => exact next_par h (unspecify_par s)

/-! ## Instructions -/

theorem exec_par {i : Instr} {s t : State} (h : exec i s = .next t) : t.par = s.par := by
  cases i with
  | ret =>
    refine complete_par h (fun u hu => ?_)
    split at hu
    · cases hu
    · next hp => cases hu; exact (pop_par hp :)
  | call nnn =>
    refine complete_par h (fun u hu => ?_)
    split at hu
    · cases hu
    · next hp => cases hu; exact (push_par hp :)
  | storeBcd x | regDump x => exact complete_par h (fun _ => writeBytes_par)
  | draw x y n | regLoad x =>
    refine complete_par h (fun u hu => ?_)
    split at hu
    · cases hu
    · cases hu; rfl
  | skipKeyPressed x | skipKeyReleased x =>
    refine complete_par h (fun u hu => ?_)
    split at hu
    · cases hu
    · cases hu; exact skipIf_par _ _
  | skipEqImm | skipNeImm | skipEqReg | skipNeReg => exact next_par h (skipIf_par _ _)
  | clearScreen | jump | loadImm | addImm | loadReg | orReg | andReg | xorReg | addReg | sub | shr | subn | shl
  | loadIndex | jumpPlusV0 | rand | loadDelay | waitKey | setDelay | setSound | addIndex | indexToGlyph =>
    exact next_par h rfl

/-! ## Cycles and events -/

@[simp] theorem awaitKey_par (x : Reg) (s : State) : (awaitKey x s).par = s.par := by
  unfold awaitKey
  split <;> rfl

/-- A reset keeps the parameters whether it accepts the image or refuses it (log entry 3). -/
@[simp] theorem resetEvent_par (image : List Byte) (s : State) : (resetEvent image s).par = s.par := by
  unfold resetEvent
  split <;> rfl

theorem cycle_par {k : Keys} {r : Byte} {s t : State} (h : cycle k r s = .next t) : t.par = s.par := by
  obtain ⟨-, rfl⟩ | ⟨x, -, rfl⟩ | ⟨-, -, rfl⟩ | ⟨-, -, -, rfl⟩ | ⟨i, -, -, -, hx⟩ := cycle_cases h
  · rfl
  · exact awaitKey_par x _
  · rfl
  · rfl
  · exact (exec_par hx).trans rfl

theorem step_par {s t : State} (h : step s = .next t) : t.par = s.par := by
  obtain ⟨image, rest, -, rfl⟩ | ⟨rest, -, -, rfl⟩ | ⟨k, r, rest, -, -, hc⟩ | ⟨n, k, r, -, -, hc⟩ :=
    step_cases h
  · exact resetEvent_par image _
  · rfl
  · exact (cycle_par hc).trans rfl
  · exact (cycle_par hc).trans rfl

/-- Settles O26: of the four ways a step answers a next state, the reset and the tick keep `par`, and so does every
cycle, as every instruction does. -/
theorem noStepChangesTheParameters : Obligations.NoStepChangesTheParameters := fun _ _ => step_par

end Sys2Proof.Machine
end

section
/-! PROOFS. Every instruction in one equation: in a state where the fault table gives it no fault it answers
`completed`, elsewhere it raises the fault of the table (60_exceptions.md R170). -/

namespace Sys2Proof.Machine

/-! ## The state in which an instruction completes -/

/-- `pc` after a skip on the condition `c` (40_cycle.md R73). -/
def skippedPc (c : Bool) (s : State) : Word := if c then s.pc + 2 else s.pc

/-- The `n` bytes of memory from `I` on. -/
def bytesAtI (s : State) (n : Nat) : List Byte := (List.range n).map (fun k => s.byteAt (s.I.toNat + k))

/-- What `draw` makes of the framebuffer, and whether a pixel collided. -/
def drawn (x y : Reg) (n : Nat) (s : State) : Framebuffer × Bool :=
  toggleAll (spritePoints s.par.spriteMsbFirst (s.reg x).toNat (s.reg y).toNat (bytesAtI s n)) s.fb

/-- The state an outcome goes on with, if it has one. -/
def nextOr (s : State) : Host.Outcome State Fault Refusal → State
  | .next t => t
  | .fault _ | .refused _ => s

/-- The state an instruction leaves when it takes no fault. The skips and the instructions of the fault table stand
here with the branch that completes, as updates of single fields; each of the others has one outcome only. -/
def completed (i : Instr) (s : State) : State :=
  match i with
  | .ret => { s with pc := s.stack.getLast?.getD 0, stack := s.stack.dropLast }
  | .call nnn => { s with pc := zextAddr nnn, stack := s.stack ++ [s.pc] }
  | .skipEqImm x nn => { s with pc := skippedPc (s.reg x == nn) s }
  | .skipNeImm x nn => { s with pc := skippedPc (s.reg x != nn) s }
  | .skipEqReg x y => { s with pc := skippedPc (s.reg x == s.reg y) s }
  | .skipNeReg x y => { s with pc := skippedPc (s.reg x != s.reg y) s }
  | .skipKeyPressed x => { s with pc := skippedPc (s.keys.getLsbD (s.reg x).toNat) s }
  | .skipKeyReleased x => { s with pc := skippedPc (!s.keys.getLsbD (s.reg x).toNat) s }
  | .draw x y n => { s.setFlag (collisionFlag (drawn x y n s).2) with fb := (drawn x y n s).1, redraw := true }
  | .storeBcd x => { s with mem := Memory.place s.par.font (bcdDigits (s.reg x)) (effAddr s 0) s.mem }
  | .regDump x => { s with mem := Memory.place s.par.font (s.regsUpTo x) (effAddr s 0) s.mem }
  | .regLoad x => { s with V := RegFile.load (bytesAtI s (x.toNat + 1)) 0 s.V }
  | i => nextOr s (exec i s)

theorem skipIf_eq (c : Bool) (s : State) : skipIf c s = { s with pc := skippedPc c s } := by cases c <;> rfl

theorem skippedPc_cases (c : Bool) (s : State) : skippedPc c s = s.pc ∨ skippedPc c s = s.pc + 2 := by
  cases c
  · exact .inl rfl
  · exact .inr rfl

/-! ## The operations that may fault, by the fault table's own terms -/

theorem transferFault_none {s : State} {n : Nat} (h : transferFault s n = none) : n = 0 ∨ s.I.toNat + n ≤ 4096 := by
  simp only [transferFault, ite_eq_right_iff, reduceCtorEq, imp_false] at h
  omega

theorem transferFault_some {s : State} {n : Nat} {c : Fault} (h : transferFault s n = some c) :
    1 ≤ n ∧ 4096 ≤ s.I.toNat + n - 1 ∧ c = .outOfBounds (max s.I.toNat 4096) := by
  unfold transferFault at h
  split at h
  · next hn => exact ⟨hn.1, hn.2, (Option.some.inj h).symm⟩
  · cases h

theorem keyFault_none {v : Byte} (h : keyFault v = none) : v.toNat ≤ 0x0F := by
  simp only [keyFault, ite_eq_right_iff, reduceCtorEq, imp_false] at h
  omega

theorem keyFault_some {v : Byte} {c : Fault} (h : keyFault v = some c) :
    0x0F < v.toNat ∧ c = .keyIndexOutOfRange v := by
  unfold keyFault at h
  split at h
  · next hv => exact ⟨hv, (Option.some.inj h).symm⟩
  · cases h

theorem readBytes_of_transferFault_none {s : State} {n : Nat} (h : transferFault s n = none) :
    readBytes n (effAddr s 0) s = .ok (bytesAtI s n) := readBytes_ok n _ s (transferFault_none h)

theorem readBytes_of_transferFault_some {s : State} {n : Nat} {c : Fault} (h : transferFault s n = some c) :
    readBytes n (effAddr s 0) s = .error c := by
  obtain ⟨hn, hend, rfl⟩ := transferFault_some h
  exact readBytes_error n _ s hn hend

theorem writeBytes_of_transferFault_none {s : State} {bs : List Byte} (h : transferFault s bs.length = none) :
    writeBytes bs (effAddr s 0) s = .ok { s with mem := Memory.place s.par.font bs (effAddr s 0) s.mem } :=
  writeBytes_ok bs _ s ((transferFault_none h).imp_left List.eq_nil_of_length_eq_zero)

theorem writeBytes_of_transferFault_some {s : State} {bs : List Byte} {c : Fault}
    (h : transferFault s bs.length = some c) : writeBytes bs (effAddr s 0) s = .error c := by
  obtain ⟨hn, hend, rfl⟩ := transferFault_some h
  exact writeBytes_error bs _ s hn hend

theorem keyState_of_keyFault_none {v : Byte} (s : State) (h : keyFault v = none) :
    keyState v s = .ok (s.keys.getLsbD v.toNat) := keyState_ok s (keyFault_none h)

theorem keyState_of_keyFault_some {v : Byte} {c : Fault} (s : State) (h : keyFault v = some c) :
    keyState v s = .error c := by
  obtain ⟨hv, rfl⟩ := keyFault_some h
  exact keyState_error s hv

theorem pop_of_ne_nil {s : State} (h : s.stack ≠ []) :
    pop s = .ok (s.stack.getLast?.getD 0, { s with stack := s.stack.dropLast }) := by
  simp [pop, List.getLast?_eq_some_getLast h]

/-! ## The equations of `exec` -/

/-- An instruction to which the fault table gives no fault completes. -/
theorem exec_of_faultOf_none {i : Instr} {s : State} (h : faultOf i s = none) : exec i s = .next (completed i s) := by
  cases i with
  | ret =>
    have hs : s.stack ≠ [] := by simpa [faultOf] using h
    simp only [exec, execRet, pop_of_ne_nil hs, complete_ok, completed]
  | call nnn =>
    have hd : s.par.stackDepth ≠ some s.stack.length := by simpa [faultOf] using h
    simp only [exec, execCall, push_ok _ hd, complete_ok, completed]
  | draw x y n =>
    simp only [exec, execDraw, readBytes_of_transferFault_none h, complete_ok, completed, drawn]
  | storeBcd x => exact congrArg (complete s) (writeBytes_of_transferFault_none (bs := bcdDigits (s.reg x)) h)
  | regDump x =>
    have hl : transferFault s (s.regsUpTo x).length = none := by rw [regsUpTo_length]; exact h
    exact congrArg (complete s) (writeBytes_of_transferFault_none hl)
  | regLoad x => simp only [exec, execRegLoad, readBytes_of_transferFault_none h, complete_ok, completed]
  | skipKeyPressed x =>
    simp only [exec, execSkipKeyPressed, keyState_of_keyFault_none s h, complete_ok, skipIf_eq, completed]
  | skipKeyReleased x =>
    simp only [exec, execSkipKeyReleased, keyState_of_keyFault_none s h, complete_ok, skipIf_eq, completed]
  | skipEqImm | skipNeImm | skipEqReg | skipNeReg => exact congrArg Host.Outcome.next (skipIf_eq _ s)
  | _ => rfl

/-- An instruction to which the fault table gives a fault raises it. -/
theorem exec_of_faultOf_some {i : Instr} {s : State} {c : Fault} (h : faultOf i s = some c) :
    exec i s = raise c s := by
  cases i with
  | ret =>
    obtain ⟨hs, rfl⟩ : s.stack = [] ∧ .stackUnderflow = c := by simpa [faultOf] using h
    simp only [exec, execRet, pop_empty hs, complete_error]
  | call nnn =>
    obtain ⟨hd, rfl⟩ : s.par.stackDepth = some s.stack.length ∧ .stackOverflow = c := by simpa [faultOf] using h
    simp only [exec, execCall, push_full _ hd, complete_error]
  | draw x y n => simp only [exec, execDraw, readBytes_of_transferFault_some h, complete_error]
  | storeBcd x => exact congrArg (complete s) (writeBytes_of_transferFault_some (bs := bcdDigits (s.reg x)) h)
  | regDump x =>
    have hl : transferFault s (s.regsUpTo x).length = some c := by rw [regsUpTo_length]; exact h
    exact congrArg (complete s) (writeBytes_of_transferFault_some hl)
  | regLoad x => simp only [exec, execRegLoad, readBytes_of_transferFault_some h, complete_error]
  | skipKeyPressed x => simp only [exec, execSkipKeyPressed, keyState_of_keyFault_some s h, complete_error]
  | skipKeyReleased x => simp only [exec, execSkipKeyReleased, keyState_of_keyFault_some s h, complete_error]
  | _ => cases h

/-- Every instruction answers a next state: it completes, or it raises the fault of the table. -/
theorem exec_cases {i : Instr} {s t : State} (h : exec i s = .next t) :
    (faultOf i s = none ∧ t = completed i s) ∨ (∃ c, faultOf i s = some c ∧ raise c s = .next t) := by
  cases hf : faultOf i s with
  | none =>
    rw [exec_of_faultOf_none hf] at h
    cases h
    exact .inl ⟨rfl, rfl⟩
  | some c => exact .inr ⟨c, rfl, (exec_of_faultOf_some hf).symm.trans h⟩

end Sys2Proof.Machine
end

section
/-! PROOFS. What each piece of the state owes to which instruction (10_state.md): frames of `completed`, and the inputs
and timers an instruction does not read. -/

namespace Sys2Proof.Machine

/-! ## Memory, framebuffer, index register and stack -/

theorem completed_mem {i : Instr} {s : State} (hb : ∀ x, i ≠ .storeBcd x) (hd : ∀ x, i ≠ .regDump x) :
    (completed i s).mem = s.mem := by
  cases i with
  | storeBcd x => exact absurd rfl (hb x)
  | regDump x => exact absurd rfl (hd x)
  | _ => rfl

theorem completed_par (i : Instr) (s : State) : (completed i s).par = s.par := by
  cases i with
  | _ => rfl

theorem completed_fb {i : Instr} {s : State} (hc : i ≠ .clearScreen) (hd : ∀ x y n, i ≠ .draw x y n) :
    (completed i s).fb = s.fb := by
  cases i with
  | clearScreen => exact absurd rfl hc
  | draw x y n => exact absurd rfl (hd x y n)
  | _ => rfl

theorem completed_I {i : Instr} {s : State} (hl : ∀ nnn, i ≠ .loadIndex nnn) (ha : ∀ x, i ≠ .addIndex x)
    (hg : ∀ x, i ≠ .indexToGlyph x) : (completed i s).I = s.I := by
  cases i with
  | loadIndex nnn => exact absurd rfl (hl nnn)
  | addIndex x => exact absurd rfl (ha x)
  | indexToGlyph x => exact absurd rfl (hg x)
  | _ => rfl

theorem completed_stack {i : Instr} {s : State} (hc : ∀ nnn, i ≠ .call nnn) (hr : i ≠ .ret) :
    (completed i s).stack = s.stack := by
  cases i with
  | call nnn => exact absurd rfl (hc nnn)
  | ret => exact absurd rfl hr
  | _ => rfl

/-- Settles O28: by `completed_mem`, and a byte is read from the memory and the parameters only. -/
theorem onlyStoresChangeMemory : Obligations.OnlyStoresChangeMemory := by
  intro i s h hb hd
  refine ⟨_, exec_of_faultOf_none h, fun a => ?_⟩
  unfold State.byteAt
  rw [completed_mem hb hd, completed_par]

/-- Settles O29. -/
theorem onlyDisplayInstructionsChangePixels : Obligations.OnlyDisplayInstructionsChangePixels :=
  fun _ _ h hc hd => ⟨_, exec_of_faultOf_none h, completed_fb hc hd⟩

/-- Settles O30. -/
theorem onlyIndexInstructionsChangeI : Obligations.OnlyIndexInstructionsChangeI :=
  fun _ _ h hl ha hg => ⟨_, exec_of_faultOf_none h, completed_I hl ha hg⟩

/-- Settles O31. -/
theorem onlyCallAndReturnChangeTheStack : Obligations.OnlyCallAndReturnChangeTheStack :=
  fun _ _ h hc hr => ⟨_, exec_of_faultOf_none h, completed_stack hc hr⟩

/-! ## The advanced pc -/

/-- Settles O32: the six skips leave `skippedPc`, which is one of two values; no other instruction but the four absolute
transfers touches `pc`. -/
theorem onlyControlTransfersChangePc : Obligations.OnlyControlTransfersChangePc := by
  intro i s h hret hjump hcall hplus
  refine ⟨_, exec_of_faultOf_none h, ?_⟩
  cases i with
  | ret => exact absurd rfl hret
  | jump nnn => exact absurd rfl (hjump nnn)
  | call nnn => exact absurd rfl (hcall nnn)
  | jumpPlusV0 nnn => exact absurd rfl (hplus nnn)
  | skipEqImm | skipNeImm | skipEqReg | skipNeReg | skipKeyPressed | skipKeyReleased =>
    exact (skippedPc_cases _ s).imp_right (fun hpc => ⟨hpc, by simp⟩)
  | _ => exact .inl rfl

/-! ## The flag register -/

theorem reg_regLoad_above {x r : Reg} {s : State} (h : x < r) : (completed (.regLoad x) s).reg r = s.reg r := by
  have hlt : x.toNat < r.toNat := h
  have hno : ¬(0 ≤ r.toNat ∧ r.toNat - 0 < (bytesAtI s (x.toNat + 1)).length) := by simp [bytesAtI]; omega
  exact (load_getElem _ 0 s.V r.toNat r.isLt).trans (dif_neg hno)

theorem lt_flag_of_ne {x : Reg} (h : x ≠ 0xF) : x < 0xF := by
  have hne : x.toNat ≠ 15 := fun e => h (BitVec.eq_of_toNat_eq e)
  have hlt : x.toNat < 16 := x.isLt
  exact BitVec.lt_def.mpr (show x.toNat < 15 by omega)

theorem setReg_flag {s t : State} {x : Reg} {v : Byte} (ht : t = s.setReg x v) (h : x ≠ 0xF) :
    t.reg 0xF = s.reg 0xF := by
  rw [ht, reg_setReg_ne s v h.symm]

/-- Settles O33: the instructions with a destination write it by `setReg` or as a block up to it, so a destination other
than 0xF leaves the flag; the others without a flag leave `V`. -/
theorem onlySixInstructionsWriteTheFlag : Obligations.OnlySixInstructionsWriteTheFlag := by
  intro i s h haddReg hsub hsubn hshr hshl hdraw hloadImm haddImm hloadReg horReg handReg hxorReg hrand hloadDelay
    hregLoad
  refine ⟨_, exec_of_faultOf_none h, ?_⟩
  cases i with
  | addReg x y => exact absurd rfl (haddReg x y)
  | sub x y => exact absurd rfl (hsub x y)
  | subn x y => exact absurd rfl (hsubn x y)
  | shr x => exact absurd rfl (hshr x)
  | shl x => exact absurd rfl (hshl x)
  | draw x y n => exact absurd rfl (hdraw x y n)
  | loadImm x nn => exact setReg_flag rfl (fun e => hloadImm nn (e ▸ rfl))
  | addImm x nn => exact setReg_flag rfl (fun e => haddImm nn (e ▸ rfl))
  | loadReg x y => exact setReg_flag rfl (fun e => hloadReg y (e ▸ rfl))
  | orReg x y => exact setReg_flag rfl (fun e => horReg y (e ▸ rfl))
  | andReg x y => exact setReg_flag rfl (fun e => handReg y (e ▸ rfl))
  | xorReg x y => exact setReg_flag rfl (fun e => hxorReg y (e ▸ rfl))
  | rand x nn => exact setReg_flag rfl (fun e => hrand nn (e ▸ rfl))
  | loadDelay x => exact setReg_flag rfl (fun e => hloadDelay (e ▸ rfl))
  | regLoad x => exact reg_regLoad_above (lt_flag_of_ne (fun e => hregLoad (e ▸ rfl)))
  | _ => rfl

/-! ## The random byte -/

theorem faultOf_rnd (i : Instr) (s : State) (r : Byte) : faultOf i { s with rnd := r } = faultOf i s := by
  cases i with
  | _ => rfl

theorem completed_rnd {i : Instr} (s : State) (r : Byte) (h : ∀ x nn, i ≠ .rand x nn) :
    completed i { s with rnd := r } = { completed i s with rnd := r } := by
  cases i with
  | rand x nn => exact absurd rfl (h x nn)
  | _ => rfl

/-- Settles O27: neither the fault table nor `completed` reads `rnd`, and a raised fault keeps it. -/
theorem randomByteReachesOnlyRand : Obligations.RandomByteReachesOnlyRand := by
  intro i s t r hrand h
  obtain ⟨hf, rfl⟩ | ⟨c, hf, hraise⟩ := exec_cases h
  · rw [exec_of_faultOf_none ((faultOf_rnd i s r).trans hf), completed_rnd s r hrand]
  · rw [exec_of_faultOf_some ((faultOf_rnd i s r).trans hf)]
    cases hraise
    rfl

/-! ## The timers -/

theorem setReg_registersOnly (s : State) (x : Reg) (v : Byte) : RegistersOnly [x] s (s.setReg x v) where
  regs _ hr := reg_setReg_ne s v (List.ne_of_not_mem_cons hr)
  mem _ := rfl
  rest := rfl

theorem loadDelay_writesReg (x : Reg) (s : State) : WritesReg (.loadDelay x) s x s.DT :=
  ⟨_, rfl, reg_setReg_same s x s.DT, setReg_registersOnly s x s.DT⟩

theorem completed_DT {i : Instr} {s : State} (h : ∀ x, i ≠ .setDelay x) : (completed i s).DT = s.DT := by
  cases i with
  | setDelay x => exact absurd rfl (h x)
  | _ => rfl

theorem completed_ST {i : Instr} {s : State} (h : ∀ x, i ≠ .setSound x) : (completed i s).ST = s.ST := by
  cases i with
  | setSound x => exact absurd rfl (h x)
  | _ => rfl

/-- No instruction reads `ST`: another value of it changes no fault and, of the state left, `ST` at most. -/
theorem exec_ignores_ST (i : Instr) (s : State) (v : Byte) :
    ∃ t t', exec i s = .next t ∧ exec i { s with ST := v } = .next t' ∧ t' = { t with ST := t'.ST } := by
  have hf' : faultOf i { s with ST := v } = faultOf i s := by cases i with | _ => rfl
  cases hf : faultOf i s with
  | none =>
    refine ⟨_, _, exec_of_faultOf_none hf, exec_of_faultOf_none (hf'.trans hf), ?_⟩
    cases i with
    | _ => rfl
  | some c => exact ⟨_, _, exec_of_faultOf_some hf, exec_of_faultOf_some (hf'.trans hf), rfl⟩

/-- Only `load-delay` reads `DT`. -/
theorem exec_ignores_DT {i : Instr} (s : State) (v : Byte) (h : ∀ x, i ≠ .loadDelay x) :
    ∃ t t', exec i s = .next t ∧ exec i { s with DT := v } = .next t' ∧ t' = { t with DT := t'.DT } := by
  have hf' : faultOf i { s with DT := v } = faultOf i s := by cases i with | _ => rfl
  cases hf : faultOf i s with
  | none =>
    refine ⟨_, _, exec_of_faultOf_none hf, exec_of_faultOf_none (hf'.trans hf), ?_⟩
    cases i with
    | loadDelay x => exact absurd rfl (h x)
    | _ => rfl
  | some c => exact ⟨_, _, exec_of_faultOf_some hf, exec_of_faultOf_some (hf'.trans hf), rfl⟩

theorem soundActive_iff (s : State) : s.soundActive = true ↔ s.ST ≠ 0 := decide_eq_true_iff

/-- Settles O55, clause by clause: the three timer instructions, the frames of `DT` and `ST`, the readers of each, the
tick, what `ST` drives, and the reset values. -/
theorem timersHaveOnlyTheirThreeInstructions : Obligations.TimersHaveOnlyTheirThreeInstructions :=
  ⟨fun _ _ => rfl, fun _ _ => rfl, loadDelay_writesReg,
    fun _ _ hf h => ⟨_, exec_of_faultOf_none hf, completed_DT h⟩,
    fun _ _ hf h => ⟨_, exec_of_faultOf_none hf, completed_ST h⟩,
    exec_ignores_ST, fun _ s v h => exec_ignores_DT s v h,
    fun s => ⟨countDown_toNat s.DT, countDown_toNat s.ST, rfl⟩, soundActive_iff, rfl, rfl⟩

/-! ## The reset state -/

theorem reset_reg (r : Reg) : State.reset.reg r = 0 := by simp [State.reg, State.reset]

/-- No memory is listed at reset, so every byte reads as its reset content. -/
theorem reset_byteAt (a : Nat) : State.reset.byteAt a = Memory.background Config.defaultFont a := rfl

/-- Settles O17: the fields as `State.reset` lists them, the pixels of a cleared framebuffer, and the reset content of
memory. -/
theorem resetStateHoldsTheResetValues : Obligations.ResetStateHoldsTheResetValues := by
  refine ⟨reset_reg, rfl, rfl, rfl, rfl, rfl, pixel_clearedFb, rfl, rfl, fun a ha => ?_, fun a ha => ?_⟩
  · exact (reset_byteAt a).trans (dif_pos ha)
  · exact (reset_byteAt a).trans (dif_neg (Nat.not_lt.mpr ha))

end Sys2Proof.Machine
end

section
/-! PROOFS. The invariant (10_state.md R23, 40_cycle.md R72) through every instruction, every cycle and every step. -/

namespace Sys2Proof.Machine

/-! ## States that differ where the invariant does not look -/

theorem InBounds.of_eq {s t : State} (h : InBounds s) (hpc : t.pc = s.pc) (hstack : t.stack = s.stack)
    (hpar : t.par = s.par) (hrun : t.run = .halted → s.run = .halted) : InBounds t where
  pc_le := hpc ▸ h.pc_le
  entries := hstack ▸ h.entries
  depth_le := by
    unfold State.depth
    rw [hstack, hpar]
    exact h.depth_le
  halted ht := hpc ▸ h.halted (hrun ht)

theorem Inv.of_eq {s t : State} (h : Inv s)
    (he : t = { s with
      DT := t.DT, ST := t.ST, prevKeys := t.prevKeys, inbox := t.inbox, keys := t.keys, rnd := t.rnd,
      redraw := t.redraw, draws := t.draws }) : Inv t := by
  rw [he]
  exact ⟨h.mem, fun hs hf => (h.bounds hs hf).of_eq rfl rfl rfl id⟩

/-- A faulted machine owes the invariant its memory only, which a raised fault leaves canonical. -/
theorem raise_inv {c : Fault} {s t : State} (h : raise c s = .next t) : Inv t := by
  cases h
  exact ⟨Memory.ofCells_wf _ _, fun _ hf => nomatch (hf : true = false)⟩

/-! ## Instructions -/

theorem zextAddr_toNat (nnn : Addr) : (zextAddr nnn).toNat = nnn.toNat :=
  BitVec.toNat_setWidth_of_le (by decide)

theorem zextByte_toNat (b : Byte) : (zextByte b).toNat = b.toNat := BitVec.toNat_setWidth_of_le (by decide)

/-- The largest target of `jump-plus-v0` (41_control_flow.md R108). -/
theorem jumpPlusV0_target_le (nnn : Addr) (b : Byte) : (zextAddr nnn + zextByte b).toNat ≤ 0x10FE := by
  have hnnn : nnn.toNat < 4096 := nnn.isLt
  have hb : b.toNat < 256 := b.isLt
  rw [BitVec.toNat_add, zextAddr_toNat, zextByte_toNat]
  omega

theorem toNat_add_two {p : Word} (h : p.toNat ≤ 0x1000) : (p + 2).toNat = p.toNat + 2 := by
  rw [BitVec.toNat_add, show (2 : Word).toNat = 2 from rfl]
  omega

theorem skippedPc_le (c : Bool) {s : State} (h : s.pc.toNat ≤ 0x1000) : (skippedPc c s).toNat ≤ 0x10FE := by
  rcases skippedPc_cases c s with e | e
  · rw [e]; omega
  · rw [e, toNat_add_two h]; omega

theorem getLast?_getD_toNat_le {stack : List Word} {n : Nat} (h : ∀ a ∈ stack, a.toNat ≤ n) :
    (stack.getLast?.getD 0).toNat ≤ n := by
  cases hl : stack.getLast? with
  | none => exact Nat.zero_le n
  | some a => exact h a (List.mem_of_getLast? hl)

theorem completed_mem_wf {i : Instr} {s : State} (hf : faultOf i s = none) (h : Memory.wf s.par.font s.mem) :
    Memory.wf (completed i s).par.font (completed i s).mem := by
  cases i with
  | storeBcd x =>
    have hend := transferFault_none hf
    exact Memory.place_wf _ _ _ h (show s.I.toNat + 3 ≤ 4096 by omega)
  | regDump x =>
    have hend := transferFault_none hf
    refine Memory.place_wf _ _ _ h ?_
    rw [regsUpTo_length]
    exact show s.I.toNat + (x.toNat + 1) ≤ 4096 by omega
  | _ => exact h

/-- The bound of 10_state.md R23 (a): a skip adds 2 to at most 0x1000, `return` takes a stack entry, and `jump-plus-v0`
reaches furthest. -/
theorem completed_pc_le {i : Instr} {s : State} (h : InBounds s) (hpc : s.pc.toNat ≤ 0x1000) :
    (completed i s).pc.toNat ≤ 0x10FE := by
  cases i with
  | ret => exact (getLast?_getD_toNat_le (fun a ha => (h.entries a ha).2)).trans (by decide)
  | jump nnn | call nnn =>
    have hnnn : nnn.toNat < 4096 := nnn.isLt
    exact (zextAddr_toNat nnn).trans_le (by omega)
  | jumpPlusV0 nnn => exact jumpPlusV0_target_le nnn (s.reg 0)
  | skipEqImm | skipNeImm | skipEqReg | skipNeReg | skipKeyPressed | skipKeyReleased => exact skippedPc_le _ hpc
  | _ => exact h.pc_le

/-- The bound of R23 (b): the one new entry is the `pc` that `call` pushes, already advanced. -/
theorem completed_entries {i : Instr} {s : State} (h : InBounds s) (hlo : 2 ≤ s.pc.toNat) (hhi : s.pc.toNat ≤ 0x1000) :
    ∀ a ∈ (completed i s).stack, 0x0002 ≤ a.toNat ∧ a.toNat ≤ 0x1000 := by
  cases i with
  | ret => exact fun a ha => h.entries a (List.mem_of_mem_dropLast ha)
  | call nnn =>
    intro a ha
    rcases List.mem_append.mp ha with ha | ha
    · exact h.entries a ha
    · rw [List.mem_singleton.mp ha]
      exact ⟨hlo, hhi⟩
  | _ => exact h.entries

/-- `call` pushes onto a stack that is not full; `return` takes one entry off. -/
theorem completed_depth_le {i : Instr} {s : State} (hf : faultOf i s = none) (h : InBounds s) :
    ∀ d, (completed i s).par.stackDepth = some d → (completed i s).depth ≤ d := by
  intro d hd
  rw [completed_par] at hd
  have hle : s.stack.length ≤ d := h.depth_le d hd
  cases i with
  | ret => exact List.length_dropLast.trans_le ((Nat.sub_le _ 1).trans hle)
  | call nnn =>
    have hfull : d ≠ s.stack.length := by simpa [faultOf, hd] using hf
    exact (List.length_append (as := s.stack)).trans_le (show s.stack.length + 1 ≤ d by omega)
  | _ => exact hle

/-- An instruction runs on, or waits for a key; only the fetch halts (40_cycle.md R72). -/
theorem completed_run_ne_halted {i : Instr} {s : State} (h : s.run = .running) : (completed i s).run ≠ .halted := by
  cases i with
  | waitKey x => exact RunState.noConfusion
  | _ => exact fun e => RunState.noConfusion (h.symm.trans e)

theorem completed_inBounds {i : Instr} {s : State} (hf : faultOf i s = none) (h : InBounds s) (hr : s.run = .running)
    (hlo : 2 ≤ s.pc.toNat) (hhi : s.pc.toNat ≤ 0x1000) : InBounds (completed i s) where
  pc_le := completed_pc_le h hhi
  entries := completed_entries h hlo hhi
  depth_le := completed_depth_le hf h
  halted ht := absurd ht (completed_run_ne_halted hr)

theorem exec_inv {i : Instr} {s t : State} (hm : Memory.wf s.par.font s.mem) (hb : InBounds s) (hr : s.run = .running)
    (hlo : 2 ≤ s.pc.toNat) (hhi : s.pc.toNat ≤ 0x1000) (h : exec i s = .next t) : Inv t := by
  obtain ⟨hf, rfl⟩ | ⟨c, -, hraise⟩ := exec_cases h
  · exact ⟨completed_mem_wf hf hm, fun _ _ => completed_inBounds hf hb hr hlo hhi⟩
  · exact raise_inv hraise

/-! ## Cycles -/

theorem Inv.inBounds_of_running {s : State} (h : Inv s) (hs : s.started = true) (hr : s.run = .running) : InBounds s :=
  h.bounds hs (by simp [State.isFaulted, hr])

theorem Inv.inBounds_of_awaitingKey {s : State} {x : Reg} (h : Inv s) (hs : s.started = true)
    (hr : s.run = .awaitingKey x) : InBounds s := h.bounds hs (by simp [State.isFaulted, hr])

theorem awaitKey_inv {x : Reg} {s : State} (h : Inv s) (hb : InBounds s) : Inv (awaitKey x s) := by
  unfold awaitKey
  split
  · exact h.of_eq rfl
  · exact ⟨h.mem, fun _ _ => hb.of_eq rfl rfl rfl (fun e => nomatch e)⟩

/-- A fetch inside Memory leaves an advanced `pc` between 0x0002 and 0x1000. -/
theorem advancePc_bounds {s : State} (h : fetchOutside s = false) :
    (advancePc s).pc.toNat = s.pc.toNat + 2 ∧ s.pc.toNat + 2 ≤ 0x1000 := by
  have hpc : ¬0xFFF ≤ s.pc.toNat := by rw [← fetchOutside_iff, h]; decide
  exact ⟨toNat_add_two (by omega), by omega⟩

theorem advancePc_inBounds {s : State} (h : InBounds s) (hr : s.run = .running) (hf : fetchOutside s = false) :
    InBounds (advancePc s) where
  pc_le := by
    obtain ⟨hadv, hle⟩ := advancePc_bounds hf
    omega
  entries := h.entries
  depth_le := h.depth_le
  halted ht := nomatch hr.symm.trans ht

theorem cycle_inv {k : Keys} {r : Byte} {s t : State} (hi : Inv s) (hs : s.started = true)
    (h : cycle k r s = .next t) : Inv t := by
  have hi' : Inv (sampleInputs k r s) := hi.of_eq rfl
  obtain ⟨-, rfl⟩ | ⟨x, hr, rfl⟩ | ⟨hr, hout, rfl⟩ | ⟨hr, hin, -, rfl⟩ | ⟨i, hr, hin, -, hx⟩ := cycle_cases h
  · exact hi'
  · exact awaitKey_inv hi' (hi'.inBounds_of_awaitingKey hs hr)
  · obtain ⟨hpc, hentries, hdepth, -⟩ := hi.inBounds_of_running hs hr
    exact ⟨hi.mem, fun _ _ => ⟨hpc, hentries, hdepth, fun _ => (fetchOutside_iff s).mp hout⟩⟩
  · exact ⟨hi.mem, fun _ _ => advancePc_inBounds (hi'.inBounds_of_running hs hr) hr hin⟩
  · have hb : InBounds (advancePc (sampleInputs k r s)) :=
      advancePc_inBounds (hi'.inBounds_of_running hs hr) hr hin
    obtain ⟨hadv, hle⟩ := advancePc_bounds (s := sampleInputs k r s) hin
    exact exec_inv (s := advancePc (sampleInputs k r s)) hi.mem hb hr (by omega) (by omega) hx

/-! ## Resets and steps -/

/-- A loaded image leaves canonical memory, an empty stack and `pc` at 0x0200. -/
theorem bootState_inv {image : List Byte} (s : State) (h : image.length ≤ 3584) : Inv (bootState image s) where
  mem := Memory.place_wf image 0x200 [] (Memory.nil_wf _) (by omega)
  bounds _ _ :=
    { pc_le := (by decide : (0x0200 : Word).toNat ≤ 0x10FE)
      entries := fun _ ha => absurd ha List.not_mem_nil
      depth_le := fun d _ => Nat.zero_le d
      halted := fun e => RunState.noConfusion e }

/-- A refused load starts no machine, so that only its memory is bound, which is canonical. -/
theorem resetEvent_inv (image : List Byte) (s : State) : Inv (resetEvent image s) := by
  unfold resetEvent
  split
  · next hfits => exact bootState_inv s ((imageFits_iff image).mp hfits)
  · exact ⟨Memory.ofCells_wf _ _, fun hs _ => nomatch hs⟩

/-- Settles O19: a reset sets the invariant up, a tick touches nothing it speaks of, and a cycle keeps it, as every
instruction does from the advanced `pc`. -/
theorem everyStepKeepsTheInvariant : Obligations.EveryStepKeepsTheInvariant := by
  intro s t hi h
  obtain ⟨image, rest, -, rfl⟩ | ⟨rest, -, -, rfl⟩ | ⟨k, r, rest, -, hs, hc⟩ | ⟨n, k, r, -, hs, hc⟩ := step_cases h
  · exact resetEvent_inv image _
  · exact hi.of_eq rfl
  · exact cycle_inv (s := { s with inbox := rest }) (hi.of_eq rfl) hs hc
  · exact cycle_inv (s := ticks n { s with draws := s.draws + 1 }) (hi.of_eq rfl) hs hc

/-- Settles O20: the reset state is the one that an empty image boots. -/
theorem resetMeetsTheInvariant : Obligations.ResetMeetsTheInvariant :=
  bootState_inv (image := []) State.reset (Nat.zero_le _)

end Sys2Proof.Machine
end

section
/-! PROOFS. What Memory holds after a load, a single write and a block write (20_memory.md R32, R35, R42), and what a
machine that a step faults had at its `pc`. -/

namespace Sys2Proof.Machine

/-! ## A load -/

/-- A byte right after a load: the image from 0x200 on, the reset content elsewhere. -/
theorem bootState_byteAt {image : List Byte} (s : State) (h : image.length ≤ 3584) (a : Nat) :
    (bootState image s).byteAt a =
      if ha : 0x200 ≤ a ∧ a - 0x200 < image.length then image[a - 0x200]
      else Memory.background s.par.font a := by
  have hend : 0x200 + image.length ≤ 4096 := by omega
  exact Memory.read_place s.par.font image 0x200 [] (Memory.nil_wf _) hend a

theorem bootState_byteAt_font {image : List Byte} (s : State) (h : image.length ≤ 3584) {a : Nat} (ha : a < 80) :
    (bootState image s).byteAt a = s.par.font[a] := by
  rw [bootState_byteAt s h, dif_neg (by omega)]
  exact dif_pos ha

theorem bootState_byteAt_image {image : List Byte} (s : State) (h : image.length ≤ 3584) {i : Nat}
    (hi : i < image.length) : (bootState image s).byteAt (0x200 + i) = image[i] := by
  rw [bootState_byteAt s h, dif_pos (by omega)]
  simp only [Nat.add_sub_cancel_left]

theorem bootState_byteAt_zero {image : List Byte} (s : State) (h : image.length ≤ 3584) {a : Nat} (ha : 80 ≤ a)
    (hout : a < 0x200 ∨ 0x200 + image.length ≤ a) : (bootState image s).byteAt a = 0 := by
  rw [bootState_byteAt s h, dif_neg (by omega)]
  exact dif_neg (Nat.not_lt.mpr ha)

theorem resetEvent_of_fits {image : List Byte} (s : State) (h : image.length ≤ 3584) :
    resetEvent image s = bootState image s := if_pos ((imageFits_iff image).mpr h)

/-- A refused load starts no machine. -/
theorem resetEvent_not_started {image : List Byte} (s : State) (h : 3584 < image.length) :
    (resetEvent image s).started = false := by
  have hfits : ¬imageFits image = true := by rw [imageFits_iff]; omega
  rw [resetEvent, if_neg hfits]

theorem report_of_not_started {s : State} (h : s.started = false) : s.report = .programTooLarge := by
  simp [State.report, h]

theorem report_of_running {s : State} (hs : s.started = true) (hr : s.run = .running) :
    s.report = .continued s.redraw := by
  simp [State.report, hs, hr]

/-- Before a machine is started only `Reset` is defined (70_reset_and_hazards.md R190; log entry 22). -/
theorem deliver_of_not_started {e : HostEvent} {s : State} (h : s.started = false)
    (he : ∀ image, e ≠ .reset image) : deliver e s = .refused .machineNotStarted := by
  cases e with
  | reset image => exact absurd rfl (he image)
  | tick | cycle => simp [deliver, h]

/-- Settles O15: an image that fits boots a machine whose bytes `bootState_byteAt` gives; a longer one leaves a machine
that is not started. -/
theorem resetLoadsTheImageOrRefusesIt : Obligations.ResetLoadsTheImageOrRefusesIt := by
  intro s image rest hinbox
  refine ⟨fun hfits => ?_, fun hlarge => ?_⟩
  · have hstep : step s = .next (bootState image { s with inbox := rest }) := by
      rw [step_cons hinbox, deliver, resetEvent_of_fits _ hfits]
    refine ⟨_, hstep, rfl, ?_, fun d r hd hr => ?_, fun i => bootState_byteAt_image _ hfits,
      fun a => bootState_byteAt_zero _ hfits⟩
    · rw [report_of_running rfl rfl]
      exact Report.noConfusion
    · exact bootState_byteAt_font _ hfits (by omega)
  · have hstopped := resetEvent_not_started { s with inbox := rest } hlarge
    exact ⟨_, step_cons hinbox, report_of_not_started hstopped, fun _ => deliver_of_not_started hstopped⟩

/-! ## A step that takes a fault -/

/-- An instruction that completes runs on, or it is `wait-key`. -/
theorem completed_run {i : Instr} {s : State} (h : s.run = .running) :
    (completed i s).run = .running ∨ ∃ x, i = .waitKey x ∧ (completed i s).run = .awaitingKey x := by
  cases i with
  | waitKey x => exact .inr ⟨x, rfl, rfl⟩
  | _ => exact .inl h

/-- A running machine that an instruction faults takes the fault of the table. -/
theorem faultOf_of_exec_faulted {i : Instr} {s t : State} {c : Fault} (hr : s.run = .running)
    (h : exec i s = .next t) (ht : t.run = .faulted c) : faultOf i s = some c := by
  obtain ⟨-, rfl⟩ | ⟨c', hf, hraise⟩ := exec_cases h
  · obtain hrun | ⟨x, -, hrun⟩ := completed_run (i := i) hr <;> exact nomatch hrun.symm.trans ht
  · cases hraise
    cases ht
    exact hf

/-- The fault table reads the registers, `I`, the stack and the parameters only. -/
theorem faultOf_of_eq {i : Instr} {s t : State}
    (h : t = { s with
      pc := t.pc, DT := t.DT, ST := t.ST, inbox := t.inbox, keys := t.keys, rnd := t.rnd, redraw := t.redraw,
      draws := t.draws }) : faultOf i t = faultOf i s := by
  rw [h]
  cases i with
  | _ => rfl

theorem run_ne_faulted_of_isFaulted {s : State} (h : s.isFaulted = false) (c : Fault) : s.run ≠ .faulted c := by
  intro hr
  simp [State.isFaulted, hr] at h

theorem awaitKey_run {x : Reg} {s : State} (h : s.run = .awaitingKey x) :
    (awaitKey x s).run = .awaitingKey x ∨ (awaitKey x s).run = .running := by
  unfold awaitKey
  split
  · exact .inl h
  · exact .inr rfl

/-- A cycle that faults a machine has fetched, from inside Memory, an instruction to which the table gives the fault. -/
theorem faultOf_of_cycle_faulted {k : Keys} {r : Byte} {s t : State} {c : Fault} (hs : s.isFaulted = false)
    (h : cycle k r s = .next t) (ht : t.run = .faulted c) :
    s.pc.toNat ≤ 0xFFE ∧ ∃ i, decodeWord (fetchWord s) = some i ∧ faultOf i s = some c := by
  have hne : s.run ≠ .faulted c := run_ne_faulted_of_isFaulted hs c
  obtain ⟨-, rfl⟩ | ⟨x, hr, rfl⟩ | ⟨-, -, rfl⟩ | ⟨-, -, -, rfl⟩ | ⟨i, hr, hin, hd, hx⟩ := cycle_cases h
  · exact absurd ht hne
  · obtain hrun | hrun := awaitKey_run (s := sampleInputs k r s) hr <;>
      exact nomatch hrun.symm.trans ht
  · cases ht
  · exact absurd ht hne
  · have hpc : s.pc.toNat ≤ 0xFFE := Nat.le_of_add_le_add_right (advancePc_bounds hin).2
    have hf : faultOf i (advancePc (sampleInputs k r s)) = some c := faultOf_of_exec_faulted hr hx ht
    exact ⟨hpc, i, hd, (faultOf_of_eq rfl).symm.trans hf⟩

theorem resetEvent_run (image : List Byte) (s : State) : (resetEvent image s).run = .running := by
  unfold resetEvent
  split <;> rfl

/-- So does a step: neither a reset nor a tick faults a machine. -/
theorem faultOf_of_step_faulted {s t : State} {c : Fault} (hs : s.isFaulted = false) (h : step s = .next t)
    (ht : t.run = .faulted c) :
    s.pc.toNat ≤ 0xFFE ∧ ∃ i, decodeWord (fetchWord s) = some i ∧ faultOf i s = some c := by
  obtain ⟨image, rest, -, rfl⟩ | ⟨rest, -, -, rfl⟩ | ⟨k, r, rest, -, -, hc⟩ | ⟨n, k, r, -, -, hc⟩ := step_cases h
  · exact nomatch (resetEvent_run image _).symm.trans ht
  · exact absurd ht (run_ne_faulted_of_isFaulted hs c)
  · obtain ⟨hpc, i, hd, hf⟩ := faultOf_of_cycle_faulted (s := { s with inbox := rest }) hs hc ht
    exact ⟨hpc, i, hd, (faultOf_of_eq rfl).symm.trans hf⟩
  · obtain ⟨hpc, i, hd, hf⟩ := faultOf_of_cycle_faulted (s := ticks n { s with draws := s.draws + 1 }) hs hc ht
    exact ⟨hpc, i, hd, (faultOf_of_eq rfl).symm.trans hf⟩

theorem keyFault_ne_outOfBounds (v : Byte) (a : Nat) : keyFault v ≠ some (.outOfBounds a) := by
  intro h
  obtain ⟨-, hc⟩ := keyFault_some h
  cases hc

/-- In the table, `OutOfBounds` stands with the four transfers only (60_exceptions.md R173). -/
theorem transfer_of_faultOf_outOfBounds {i : Instr} {s : State} {a : Nat} (h : faultOf i s = some (.outOfBounds a)) :
    (∃ x y n, i = .draw x y n) ∨ (∃ x, i = .storeBcd x) ∨ (∃ x, i = .regDump x) ∨ ∃ x, i = .regLoad x := by
  cases i with
  | draw x y n => exact .inl ⟨x, y, n, rfl⟩
  | storeBcd x => exact .inr (.inl ⟨x, rfl⟩)
  | regDump x => exact .inr (.inr (.inl ⟨x, rfl⟩))
  | regLoad x => exact .inr (.inr (.inr ⟨x, rfl⟩))
  | skipKeyPressed x | skipKeyReleased x => exact absurd h (keyFault_ne_outOfBounds (s.reg x) a)
  | ret | call => simp [faultOf] at h
  | _ => cases h

/-! ## A write -/

/-- A byte after one write inside a canonical Memory. -/
theorem byteAt_write {s : State} (h : Memory.wf s.par.font s.mem) (a b : Nat) (v : Byte) :
    ({ s with mem := Memory.write s.par.font s.mem a v } : State).byteAt b = if b = a then v else s.byteAt b :=
  Memory.read_write s.par.font s.mem a b v h

/-- Settles O49: the two outcomes of `writeByte`, and the fault table at the instruction a faulting step fetched. -/
theorem memWriteChangesOneByteOrFaults : Obligations.MemWriteChangesOneByteOrFaults := by
  refine ⟨fun _ v s => writeByte_error v s, fun a v s hm ha => ?_, fun s t a hs h ht => ?_⟩
  · refine ⟨_, writeByte_ok v s ha, ?_, fun b hb => ?_, rfl⟩
    · rw [byteAt_write hm, if_pos rfl]
    · rw [byteAt_write hm, if_neg hb]
  · obtain ⟨hpc, i, hd, hf⟩ := faultOf_of_step_faulted hs h ht
    exact ⟨hpc, i, hd, transfer_of_faultOf_outOfBounds hf⟩

/-! ## A block write -/

/-- A transfer whose last byte lies inside Memory takes no fault. -/
theorem transferFault_eq_none {s : State} {n : Nat} (h : s.I.toNat + n ≤ 4096) : transferFault s n = none :=
  if_neg (by omega)

/-- `reg-dump` stores register `r` at `I + r` (43_index_memory.md R145). -/
theorem completed_regDump_byteAt {x r : Reg} {s : State} (hm : Memory.wf s.par.font s.mem)
    (hfit : s.I.toNat + x.toNat ≤ 0xFFF) (hr : r ≤ x) :
    (completed (.regDump x) s).byteAt (s.I.toNat + r.toNat) = s.reg r := by
  have hle : r.toNat ≤ x.toNat := hr
  have hlen : (s.regsUpTo x).length = x.toNat + 1 := regsUpTo_length s x
  refine (Memory.read_place s.par.font (s.regsUpTo x) s.I.toNat s.mem hm (by omega) _).trans ?_
  rw [dif_pos (by omega), ← regsUpTo_getElem s x r hr]
  simp only [Nat.add_sub_cancel_left]

/-- Settles O50: the two bytes at `pc` are the bytes at `I` and `I + 1`, where `reg-dump` stores `V[0]` and `V[1]`. -/
theorem storeIsSeenByTheNextFetch : Obligations.StoreIsSeenByTheNextFetch := by
  intro x s hm hx hI hfit
  have hf : faultOf (.regDump x) s = none := transferFault_eq_none (by omega)
  have h0 : (completed (.regDump x) s).byteAt s.I.toNat = s.reg 0 :=
    completed_regDump_byteAt (r := 0) hm hfit (BitVec.le_def.mpr (Nat.zero_le x.toNat))
  have h1 : (completed (.regDump x) s).byteAt (s.I.toNat + 1) = s.reg 1 := completed_regDump_byteAt hm hfit hx
  have hpc : (completed (.regDump x) s).pc = s.I := hI.symm
  refine ⟨_, exec_of_faultOf_none hf, ?_⟩
  rw [fetchWord, hpc, h0, h1]

end Sys2Proof.Machine
end

section
/-! PROOFS. The decoder and the encoder (30_encoding.md): the fields of a word, the rows of the opcode map, the undefined
words, and the round trip. -/

namespace Sys2Proof

/-! ## The fields of a word -/

/-- A field of a word by shift and mask, as R51 writes it. -/
theorem toNat_extractLsb'_eq_shift_mask (w : Word) (start : Nat) {len : Nat} (h : len ≤ 16) :
    (w.extractLsb' start len).toNat = ((w >>> start) &&& BitVec.ofNat 16 (2 ^ len - 1)).toNat := by
  have hpow : 2 ^ len ≤ 2 ^ 16 := Nat.pow_le_pow_right (by decide) h
  have hpos : 0 < 2 ^ len := Nat.two_pow_pos len
  have hmask : (BitVec.ofNat 16 (2 ^ len - 1)).toNat = 2 ^ len - 1 := Nat.mod_eq_of_lt (by omega)
  rw [BitVec.toNat_and, hmask, Nat.and_two_pow_sub_one_eq_mod, BitVec.toNat_ushiftRight, BitVec.extractLsb'_toNat]

theorem yOf_append_nOf (w : Word) : yOf w ++ nOf w = nnOf w :=
  BitVec.extractLsb'_append_extractLsb'_eq_extractLsb' rfl

theorem xOf_append_yOf_append_nOf (w : Word) : xOf w ++ yOf w ++ nOf w = nnnOf w := by
  have hxy : xOf w ++ yOf w = w.extractLsb' 4 8 := BitVec.extractLsb'_append_extractLsb'_eq_extractLsb' rfl
  rw [hxy]
  exact BitVec.extractLsb'_append_extractLsb'_eq_extractLsb' rfl

/-- The high nibbles of a word of two bytes lie in the first byte. -/
theorem wordOfBytes_extractLsb'_high (hi lo : Byte) (start len : Nat) :
    (wordOfBytes hi lo).extractLsb' (start + 8) len = hi.extractLsb' start len := by
  rw [wordOfBytes, BitVec.extractLsb'_append_eq_of_le (Nat.le_add_left 8 start), Nat.add_sub_cancel]

/-- The low nibbles lie in the second byte. -/
theorem wordOfBytes_extractLsb'_low (hi lo : Byte) {start len : Nat} (h : start + len ≤ 8) :
    (wordOfBytes hi lo).extractLsb' start len = lo.extractLsb' start len :=
  BitVec.extractLsb'_append_eq_of_add_le h

/-- Settles O1: each field is a shift and a mask, adjacent fields append, and each byte holds its own fields. -/
theorem fieldsOfAWordAreMaskAndShift : Obligations.FieldsOfAWordAreMaskAndShift := by
  refine ⟨fun w => ⟨?op, ?x, ?y, ?n, ?nn, ?nnn, ?nnn_append, ?nn_append⟩,
    fun hi lo => ⟨?hi_op, ?hi_x, ?lo_nn, ?lo_y, ?lo_n⟩⟩
  case op => exact toNat_extractLsb'_eq_shift_mask w 12 (by decide)
  case x => exact toNat_extractLsb'_eq_shift_mask w 8 (by decide)
  case y => exact toNat_extractLsb'_eq_shift_mask w 4 (by decide)
  case n => exact toNat_extractLsb'_eq_shift_mask w 0 (by decide)
  case nn => exact toNat_extractLsb'_eq_shift_mask w 0 (by decide)
  case nnn => exact toNat_extractLsb'_eq_shift_mask w 0 (by decide)
  case nnn_append => exact (xOf_append_yOf_append_nOf w).symm
  case nn_append => exact (yOf_append_nOf w).symm
  case hi_op => exact wordOfBytes_extractLsb'_high hi lo 4 4
  case hi_x => exact wordOfBytes_extractLsb'_high hi lo 0 4
  case lo_nn => exact BitVec.extractLsb'_append_eq_right
  case lo_y => exact wordOfBytes_extractLsb'_low hi lo (by decide)
  case lo_n => exact wordOfBytes_extractLsb'_low hi lo (by decide)

/-! ## The decoder, family by family (R54, R55) -/

theorem decodeWord_family0 {w : Word} (h : opOf w = 0x0) : decodeWord w = decodeFamily0 w := by
  rw [decodeWord, h]; rfl

theorem decodeWord_family8 {w : Word} (h : opOf w = 0x8) : decodeWord w = decodeFamily8 w := by
  rw [decodeWord, h]; rfl

theorem decodeWord_familyE {w : Word} (h : opOf w = 0xE) : decodeWord w = decodeFamilyE w := by
  rw [decodeWord, h]; rfl

theorem decodeWord_familyF {w : Word} (h : opOf w = 0xF) : decodeWord w = decodeFamilyF w := by
  rw [decodeWord, h]; rfl

/-- A word of a family without a selector is a well-formed instruction; the row count of `draw` is four bits wide. -/
theorem decodeWord_of_no_selector {w : Word} (h0 : opOf w ≠ 0x0) (h8 : opOf w ≠ 0x8) (hE : opOf w ≠ 0xE)
    (hF : opOf w ≠ 0xF) : ∃ i, decodeWord w = some i ∧ i.wellFormed = true := by
  unfold decodeWord
  split
  case h_1 h => exact absurd h h0
  case h_9 h => exact absurd h h8
  case h_14 => exact ⟨_, rfl, decide_eq_true (Nat.le_of_lt_succ (nOf w).isLt)⟩
  case h_15 h => exact absurd h hE
  case h_16 h => exact absurd h hF
  case h_17 =>
    simp only [imp_false] at *
    bv_omega
  all_goals exact ⟨_, rfl, rfl⟩

/-- What `decodeWord` can do, said once: a family with a selector decides, or the word is an instruction. -/
theorem decodeWord_cases (w : Word) :
    (opOf w = 0x0 ∧ decodeWord w = decodeFamily0 w) ∨ (opOf w = 0x8 ∧ decodeWord w = decodeFamily8 w) ∨
    (opOf w = 0xE ∧ decodeWord w = decodeFamilyE w) ∨ (opOf w = 0xF ∧ decodeWord w = decodeFamilyF w) ∨
    ((opOf w ≠ 0x0 ∧ opOf w ≠ 0x8 ∧ opOf w ≠ 0xE ∧ opOf w ≠ 0xF) ∧
      ∃ i, decodeWord w = some i ∧ i.wellFormed = true) := by
  by_cases h0 : opOf w = 0x0
  · exact .inl ⟨h0, decodeWord_family0 h0⟩
  by_cases h8 : opOf w = 0x8
  · exact .inr (.inl ⟨h8, decodeWord_family8 h8⟩)
  by_cases hE : opOf w = 0xE
  · exact .inr (.inr (.inl ⟨hE, decodeWord_familyE hE⟩))
  by_cases hF : opOf w = 0xF
  · exact .inr (.inr (.inr (.inl ⟨hF, decodeWord_familyF hF⟩)))
  · exact .inr (.inr (.inr (.inr ⟨⟨h0, h8, hE, hF⟩, decodeWord_of_no_selector h0 h8 hE hF⟩)))

/-! ## The rows of the opcode map (R57) -/

/-- A field that the mask covers whole is the field of the fixed bits. -/
theorem extractLsb'_eq_of_and_eq {w mask fixed : Word} {start len : Nat} (h : w &&& mask = fixed)
    (hmask : mask.extractLsb' start len = BitVec.allOnes len) :
    w.extractLsb' start len = fixed.extractLsb' start len := by
  rw [← h, BitVec.extractLsb'_and, hmask, BitVec.and_allOnes]

/-- A row that `op` alone selects. -/
theorem encodes_of_op {fixed : Word} {build : Word → Instr}
    (h : ∀ w, opOf w = opOf fixed → decodeWord w = some (build w)) : Machine.Encodes 0xF000 fixed build :=
  fun w hw => h w (extractLsb'_eq_of_and_eq hw rfl)

/-- A row that `op` and `n` select. -/
theorem encodes_of_op_n {fixed : Word} {build : Word → Instr}
    (h : ∀ w, opOf w = opOf fixed → nOf w = nOf fixed → decodeWord w = some (build w)) :
    Machine.Encodes 0xF00F fixed build :=
  fun w hw => h w (extractLsb'_eq_of_and_eq hw rfl) (extractLsb'_eq_of_and_eq hw rfl)

/-- A row that `op` and `nn` select. -/
theorem encodes_of_op_nn {fixed : Word} {build : Word → Instr}
    (h : ∀ w, opOf w = opOf fixed → nnOf w = nnOf fixed → decodeWord w = some (build w)) :
    Machine.Encodes 0xF0FF fixed build :=
  fun w hw => h w (extractLsb'_eq_of_and_eq hw rfl) (extractLsb'_eq_of_and_eq hw rfl)

/-- Settles O3: in each row the mask fixes `op` and, in the families 0x0, 0x8, 0xE and 0xF, the selector; the rows
follow each other family by family. -/
theorem everyTableRowDecodesToItsInstruction : Obligations.EveryTableRowDecodesToItsInstruction := by
  unfold Obligations.EveryTableRowDecodesToItsInstruction
  and_intros
  iterate 2 exact encodes_of_op_nn fun w hop hnn => by rw [decodeWord_family0 hop, decodeFamily0, hnn]; rfl
  iterate 7 exact encodes_of_op fun w hop => by rw [decodeWord, hop]; rfl
  iterate 9 exact encodes_of_op_n fun w hop hn => by rw [decodeWord_family8 hop, decodeFamily8, hn]; rfl
  iterate 5 exact encodes_of_op fun w hop => by rw [decodeWord, hop]; rfl
  iterate 2 exact encodes_of_op_nn fun w hop hnn => by rw [decodeWord_familyE hop, decodeFamilyE, hnn]; rfl
  iterate 9 exact encodes_of_op_nn fun w hop hnn => by rw [decodeWord_familyF hop, decodeFamilyF, hnn]; rfl

/-- Settles O2: the decoder run on the listed words. -/
theorem sampleWordsDecodeAsListed : Obligations.SampleWordsDecodeAsListed := by
  unfold Obligations.SampleWordsDecodeAsListed
  decide

/-! ## The undefined words (R58) -/

theorem decodeFamily0_eq_none_iff (w : Word) : decodeFamily0 w = none ↔ nnOf w ∉ [0xE0, 0xEE] := by
  unfold decodeFamily0
  split <;> simp_all

theorem decodeFamily8_eq_none_iff (w : Word) :
    decodeFamily8 w = none ↔ nOf w ∈ [0x8, 0x9, 0xA, 0xB, 0xC, 0xD, 0xF] := by
  unfold decodeFamily8
  split
  case h_10 =>
    have hn : nOf w = 0x8 ∨ nOf w = 0x9 ∨ nOf w = 0xA ∨ nOf w = 0xB ∨ nOf w = 0xC ∨ nOf w = 0xD ∨ nOf w = 0xF := by
      simp only [imp_false] at *
      bv_omega
    simpa using hn
  all_goals simp_all

theorem decodeFamilyE_eq_none_iff (w : Word) : decodeFamilyE w = none ↔ nnOf w ∉ [0x9E, 0xA1] := by
  unfold decodeFamilyE
  split <;> simp_all

theorem decodeFamilyF_eq_none_iff (w : Word) :
    decodeFamilyF w = none ↔ nnOf w ∉ [0x07, 0x0A, 0x15, 0x18, 0x1E, 0x29, 0x33, 0x55, 0x65] := by
  unfold decodeFamilyF
  split <;> simp_all

/-- Settles O4: a word is undefined when its family has a selector and the selector none of its rows. -/
theorem undefinedWordsAreExactlyThoseListed : Obligations.UndefinedWordsAreExactlyThoseListed := by
  intro w
  rw [← decodeFamily0_eq_none_iff, ← decodeFamily8_eq_none_iff, ← decodeFamilyE_eq_none_iff,
    ← decodeFamilyF_eq_none_iff]
  obtain ⟨hop, hd⟩ | ⟨hop, hd⟩ | ⟨hop, hd⟩ | ⟨hop, hd⟩ | ⟨⟨h0, h8, hE, hF⟩, i, hd, -⟩ := decodeWord_cases w
  case inr.inr.inr.inr =>
    simp only [hd, h0, h8, hE, hF, reduceCtorEq, false_and, or_false]
  all_goals simp [hop, hd]

/-! ## Well-formedness (R53) -/

theorem decodeFamily0_wellFormed {w : Word} {i : Instr} (h : decodeFamily0 w = some i) : i.wellFormed = true := by
  unfold decodeFamily0 at h
  split at h <;> cases h <;> rfl

theorem decodeFamily8_wellFormed {w : Word} {i : Instr} (h : decodeFamily8 w = some i) : i.wellFormed = true := by
  unfold decodeFamily8 at h
  split at h <;> cases h <;> rfl

theorem decodeFamilyE_wellFormed {w : Word} {i : Instr} (h : decodeFamilyE w = some i) : i.wellFormed = true := by
  unfold decodeFamilyE at h
  split at h <;> cases h <;> rfl

theorem decodeFamilyF_wellFormed {w : Word} {i : Instr} (h : decodeFamilyF w = some i) : i.wellFormed = true := by
  unfold decodeFamilyF at h
  split at h <;> cases h <;> rfl

theorem decodeWord_wellFormed {w : Word} {i : Instr} (h : decodeWord w = some i) : i.wellFormed = true := by
  obtain ⟨-, hd⟩ | ⟨-, hd⟩ | ⟨-, hd⟩ | ⟨-, hd⟩ | ⟨-, j, hd, hj⟩ := decodeWord_cases w
  · exact decodeFamily0_wellFormed (hd.symm.trans h)
  · exact decodeFamily8_wellFormed (hd.symm.trans h)
  · exact decodeFamilyE_wellFormed (hd.symm.trans h)
  · exact decodeFamilyF_wellFormed (hd.symm.trans h)
  · cases hd.symm.trans h
    exact hj

/-- The decoder on bytes gives an instruction exactly when there are two bytes whose word decodes to it. -/
theorem decode_eq_ok_iff {bytes rest : List Byte} {i : Instr} :
    decode bytes = .ok (i, rest) ↔
      ∃ hi lo, bytes = hi :: lo :: rest ∧ decodeWord (wordOfBytes hi lo) = some i := by
  match bytes with
  | [] | [_] => simp [decode]
  | hi :: lo :: bytes =>
    rw [decode_pair]
    cases hd : decodeWord (wordOfBytes hi lo) with
    | none => simp [hd]
    | some j => simp [hd, and_comm]

/-- Settles O5: only the word of the first two bytes is decoded. -/
theorem decodedInstructionsAreWellFormed : Obligations.DecodedInstructionsAreWellFormed := by
  intro bytes rest i h
  obtain ⟨hi, lo, -, hd⟩ := decode_eq_ok_iff.mp h
  exact decodeWord_wellFormed hd

/-! ## The round trip (R51, R52, R57) -/

open Laws in
theorem decodeWord_encode : ∀ i : Instr, RoundTrip.Statement i
  | .clearScreen => RoundTrip.clearScreen
  | .ret => RoundTrip.ret
  | .jump nnn => RoundTrip.jump nnn
  | .call nnn => RoundTrip.call nnn
  | .skipEqImm x nn => RoundTrip.skipEqImm x nn
  | .skipNeImm x nn => RoundTrip.skipNeImm x nn
  | .skipEqReg x y => RoundTrip.skipEqReg x y
  | .loadImm x nn => RoundTrip.loadImm x nn
  | .addImm x nn => RoundTrip.addImm x nn
  | .loadReg x y => RoundTrip.loadReg x y
  | .orReg x y => RoundTrip.orReg x y
  | .andReg x y => RoundTrip.andReg x y
  | .xorReg x y => RoundTrip.xorReg x y
  | .addReg x y => RoundTrip.addReg x y
  | .sub x y => RoundTrip.sub x y
  | .shr x => RoundTrip.shr x
  | .subn x y => RoundTrip.subn x y
  | .shl x => RoundTrip.shl x
  | .skipNeReg x y => RoundTrip.skipNeReg x y
  | .loadIndex nnn => RoundTrip.loadIndex nnn
  | .jumpPlusV0 nnn => RoundTrip.jumpPlusV0 nnn
  | .rand x nn => RoundTrip.rand x nn
  | .draw x y n => RoundTrip.draw x y n
  | .skipKeyPressed x => RoundTrip.skipKeyPressed x
  | .skipKeyReleased x => RoundTrip.skipKeyReleased x
  | .loadDelay x => RoundTrip.loadDelay x
  | .waitKey x => RoundTrip.waitKey x
  | .setDelay x => RoundTrip.setDelay x
  | .setSound x => RoundTrip.setSound x
  | .addIndex x => RoundTrip.addIndex x
  | .indexToGlyph x => RoundTrip.indexToGlyph x
  | .storeBcd x => RoundTrip.storeBcd x
  | .regDump x => RoundTrip.regDump x
  | .regLoad x => RoundTrip.regLoad x

theorem decode_encodeBytes {i : Instr} (h : i.wellFormed = true) (rest : List Byte) :
    decode (encodeBytes i ++ rest) = .ok (i, rest) := by
  refine decode_eq_ok_iff.mpr ⟨_, _, rfl, ?_⟩
  rw [wordOfBytes_split]
  exact decodeWord_encode i h

/-- Settles O6: the round trip per instruction, and the two bytes of a word make it again. -/
theorem decodeOfEncodeIsTheInstruction : Obligations.DecodeOfEncodeIsTheInstruction :=
  fun i rest h => ⟨decodeWord_encode i h, decode_encodeBytes h rest⟩

end Sys2Proof
end

section
/-! PROOFS. The cycle and its events (40_cycle.md): the step on a pending cycle in each run state, the step on ticks,
the step without an event as a pending cycle after some ticks, and the `redraw` output. -/

namespace Sys2Proof.Machine

/-! ## A cycle in each run state (R70) -/

theorem step_cycle {s : State} {k : Keys} {r : Byte} {rest : List HostEvent} (hi : s.inbox = .cycle k r :: rest)
    (hs : s.started = true) : step s = cycle k r { s with inbox := rest } :=
  (step_cons hi).trans (deliver_cycle (s := { s with inbox := rest }) hs)

theorem cycle_fetchOutside {k : Keys} {r : Byte} {s : State} (hr : s.run = .running) (hp : 0xFFF ≤ s.pc.toNat) :
    cycle k r s = .next { sampleInputs k r s with run := .halted } := by
  simp only [cycle_eq, hr, (fetchOutside_iff s).mpr hp, if_true]

theorem cycle_awaitingKey {k : Keys} {r : Byte} {s : State} {x : Reg} (hr : s.run = .awaitingKey x) :
    cycle k r s = .next (awaitKey x (sampleInputs k r s)) := by
  simp only [cycle_eq, hr]

/-- Settles O7: the decoder on the two bytes at `pc` is the one on the fetched word. -/
theorem stepRunsTheDecodedInstruction : Obligations.StepRunsTheDecodedInstruction := by
  intro s k r rest i hi hs hr hp hd
  have hw : decodeWord (fetchWord s) = some i := (decode_pair_ok _ _ _).mp hd
  rw [step_running hi hs hr hp]
  simp only [executeWord, hw]

/-- Settles O9: the word at `pc` decodes to nothing, and the no-op leaves the advanced state. -/
theorem undefinedWordOnlyAdvancesPc : Obligations.UndefinedWordOnlyAdvancesPc := by
  refine ⟨by decide, fun s k r rest hi hs hr hp hd => ?_⟩
  have hw : decodeWord (fetchWord s) = none := hd
  rw [step_running hi hs hr hp]
  simp only [executeWord, hw, execNopUndefined]

/-- Settles O10: the fetch is outside Memory from 0xFFF on. -/
theorem fetchOutsideMemoryHalts : Obligations.FetchOutsideMemoryHalts := fun s _ _ rest hi hs hr hp =>
  (step_cycle hi hs).trans (cycle_fetchOutside (s := { s with inbox := rest }) hr hp)

/-! ## An ended run (R71) -/

/-- In an ended run the report does not depend on `redraw`, so a new sample leaves it. -/
theorem report_sampleInputs {k : Keys} {r : Byte} {s : State} (h : s.ended = true) :
    (sampleInputs k r s).report = s.report := by
  simp only [State.report, sampleInputs_started, sampleInputs_run]
  cases hr : s.run with
  | halted | faulted => rfl
  | running | awaitingKey => simp [State.ended, hr] at h

/-- Settles O11: in an ended run a cycle takes its sample only. -/
theorem endedMachineIgnoresCycles : Obligations.EndedMachineIgnoresCycles := fun s _ _ rest hi hs he =>
  ⟨_, (step_cycle hi hs).trans (cycle_ended (s := { s with inbox := rest }) he), rfl,
    report_sampleInputs (s := { s with inbox := rest }) he⟩

/-! ## A wait (R78) -/

theorem awaitKey_of_freshKeys_zero {x : Reg} {s : State} (h : freshKeys s = 0) :
    awaitKey x s = { s with prevKeys := s.keys } := by
  simp only [awaitKey, (chooseKey_keyCodes_none _ _).mpr h]

theorem awaitKey_of_freshKeys {x : Reg} {s : State} (h : freshKeys s ≠ 0) :
    ∃ code < 16, (freshKeys s).getLsbD code = true ∧
      awaitKey x s = { s.setReg x (BitVec.ofNat 8 code) with
        prevKeys := s.keys, run := .running, draws := s.draws + 1 } := by
  have hcodes : keyCodes (freshKeys s) ≠ [] := fun e =>
    h ((chooseKey_keyCodes_none s.draws _).mp ((chooseKey_spec _ _).1 e))
  obtain ⟨code, hmem, hchoice⟩ := (chooseKey_spec s.draws _).2 hcodes
  obtain ⟨hlt, hset⟩ := mem_keyCodes.mp hmem
  exact ⟨code, hlt, hset, by simp only [awaitKey, hchoice]⟩

/-- Settles O18: after the sample the fresh keys are those down now and up before. -/
theorem waitingMachineResumesOnAFreshPress : Obligations.WaitingMachineResumesOnAFreshPress := by
  intro s x k r rest hi hs hr
  have hstep : step s = .next (awaitKey x (sampleInputs k r { s with inbox := rest })) :=
    (step_cycle hi hs).trans (cycle_awaitingKey (s := { s with inbox := rest }) hr)
  refine ⟨fun hfresh => ?_, fun hheld => ?_⟩
  · obtain ⟨code, hlt, hset, hawait⟩ :=
      awaitKey_of_freshKeys (x := x) (s := sampleInputs k r { s with inbox := rest }) hfresh
    rw [hawait] at hstep
    exact ⟨_, code, hlt, hstep, hset, reg_setReg_same s x _, fun y hy => reg_setReg_ne s _ hy, rfl⟩
  · rw [hstep, awaitKey_of_freshKeys_zero (s := sampleInputs k r { s with inbox := rest }) hheld]
    rfl

/-! ## Ticks (R80) -/

theorem step_tick {s : State} {rest : List HostEvent} (hi : s.inbox = .tick :: rest) (hs : s.started = true) :
    step s = .next (tick { s with inbox := rest }) :=
  (step_cons hi).trans (deliver_tick (s := { s with inbox := rest }) hs)

theorem countDown_eq_ite (c : Byte) : countDown c = if c = 0 then 0 else c - 1 := by
  unfold countDown
  by_cases h : c = 0
  · rw [if_pos h, if_neg (not_not.mpr h), h]
  · rw [if_neg h, if_pos h]

/-- Settles O13: the event is `tick`, in every run state. -/
theorem tickCountsBothTimersDown : Obligations.TickCountsBothTimersDown := by
  intro s rest hi hs
  rw [step_tick hi hs, ← countDown_eq_ite, ← countDown_eq_ite]
  rfl

/-- `n` ticks after one are `n + 1` ticks at once. -/
theorem ticks_tick (n : Nat) (s : State) : ticks n (tick s) = ticks (n + 1) s := by
  rw [ticks_eq_iterate, ticks_eq_iterate, Function.iterate_succ_apply]

theorem run_core_pending_ticks (n : Nat) (s : State) (rest : List HostEvent)
    (hi : s.inbox = List.replicate n .tick ++ rest) (hs : s.started = true) :
    Host.Core.run core n s = .next (ticks n { s with inbox := rest }) := by
  induction n generalizing s with
  | zero => rw [run_core_zero, ticks_zero, ← show s.inbox = rest from hi]
  | succ n ih =>
    calc Host.Core.run core (n + 1) s
      _ = Host.Core.run core n (tick { s with inbox := List.replicate n .tick ++ rest }) :=
        run_core_succ n (step_tick hi hs)
      _ = .next (ticks n (tick { s with inbox := rest })) := ih _ rfl hs
      _ = .next (ticks (n + 1) { s with inbox := rest }) := congrArg Host.Outcome.next (ticks_tick n _)

/-- Settles O14: `n` steps are `n` ticks at once, by induction on `n`. -/
theorem pendingTicksAddUpAndClamp : Obligations.PendingTicksAddUpAndClamp := run_core_pending_ticks

/-! ## The step without an event (R80) -/

/-- The state from which a pending cycle takes the step that `s` takes without an event: `n` ticks later, with the
inputs `k` and `r` and one free value drawn (log entries 1, 18). -/
def cyclePending (n : Nat) (k : Keys) (r : Byte) (s : State) : State :=
  { sampleInputs k r (ticks n s) with inbox := [.cycle k r], draws := s.draws + 1 }

/-- The cycle of `cyclePending` samples the same inputs again, which changes nothing. -/
theorem step_eq_step_cyclePending {s : State} (hi : s.inbox = []) (hs : s.started = true) :
    ∃ n k r, step s = step (cyclePending n k r s) := by
  obtain ⟨n, k, r, hfree⟩ := freeStep_started hs
  refine ⟨n, k, r, ?_⟩
  rw [step_nil hi, hfree, step_cycle (s := cyclePending n k r s) rfl hs, ← hi]
  rfl

/-- Settles O8: the step is the one on a pending cycle after the ticks, and the statements about pending cycles (O7, O9,
O10, O18, O11) say what that does in each run state. -/
theorem stepWithoutAnEventTicksAndRuns : Obligations.StepWithoutAnEventTicksAndRuns := by
  intro s hi hs
  obtain ⟨n, k, r, hstep⟩ := step_eq_step_cyclePending hi hs
  refine ⟨n, k, r, { cyclePending n k r s with inbox := [] }, by rw [← hi]; rfl, hstep, fun i hr hp hd => ?_,
    fun hr hp hd => ?_, fun hr hp => ?_, fun x hr hheld => ?_, fun x hr hfresh => ?_, fun hended => ?_⟩
  · exact hstep.trans (stepRunsTheDecodedInstruction (cyclePending n k r s) k r [] i rfl hs hr hp hd)
  · exact hstep.trans (undefinedWordOnlyAdvancesPc.2 (cyclePending n k r s) k r [] rfl hs hr hp hd)
  · exact hstep.trans (fetchOutsideMemoryHalts (cyclePending n k r s) k r [] rfl hs hr hp)
  · exact hstep.trans ((waitingMachineResumesOnAFreshPress (cyclePending n k r s) x k r [] rfl hs hr).2 hheld)
  · rw [hstep]
    exact (waitingMachineResumesOnAFreshPress (cyclePending n k r s) x k r [] rfl hs hr).1 hfresh
  · obtain ⟨_, ht, rfl, -⟩ := endedMachineIgnoresCycles (cyclePending n k r s) k r [] rfl hs hended
    exact hstep.trans ht

/-! ## A halted run (R71, R81) -/

theorem report_of_halted {s : State} (hs : s.started = true) (hr : s.run = .halted) : s.report = .halted := by
  simp [State.report, hs, hr]

theorem countDown_toNat_le (c : Byte) : (countDown c).toNat ≤ c.toNat := by
  rw [countDown_toNat]
  exact Nat.sub_le _ _

theorem toNat_ofNat_sub_le (c : Byte) (n : Nat) : (BitVec.ofNat 8 (c.toNat - n)).toNat ≤ c.toNat :=
  (Nat.mod_le _ _).trans (Nat.sub_le _ _)

/-- Settles O58: a tick moves the timers only, and a cycle, pending or free, finds an ended run. -/
theorem onlyResetLeavesAHaltedRun : Obligations.OnlyResetLeavesAHaltedRun := by
  intro s hr hs hreset
  have hended : s.ended = true := by simp [State.ended, hr]
  match hi : s.inbox with
  | [] =>
    obtain ⟨n, k, r, hfree⟩ := freeStep_started hs
    have hstep := (step_nil hi).trans (hfree.trans (cycle_ended hended))
    exact ⟨_, hstep, hr, hs, report_of_halted hs hr, toNat_ofNat_sub_le _ _, toNat_ofNat_sub_le _ _,
      by rw [List.tail_nil, ← hi]; rfl⟩
  | .reset image :: rest => exact absurd hi (hreset image rest)
  | .tick :: rest =>
    exact ⟨_, step_tick hi hs, hr, hs, report_of_halted hs hr, countDown_toNat_le _, countDown_toNat_le _, rfl⟩
  | .cycle k r :: rest =>
    have hstep := (step_cycle hi hs).trans (cycle_ended hended)
    exact ⟨_, hstep, hr, hs, report_of_halted hs hr, le_rfl, le_rfl, rfl⟩

/-! ## The `redraw` output (R79) -/

theorem completed_redraw_iff {i : Instr} {s : State} (h : s.redraw = false) :
    (completed i s).redraw = true ↔ i = .clearScreen ∨ ∃ x y n, i = .draw x y n := by
  cases i with
  | clearScreen => exact iff_of_true rfl (.inl rfl)
  | draw x y n => exact iff_of_true rfl (.inr ⟨x, y, n, rfl⟩)
  | _ => exact iff_of_false (fun ht => nomatch h.symm.trans ht) (by simp)

/-- Settles O25: an instruction that completes follows `completed_redraw_iff`, and a raised fault leaves `redraw` 0. -/
theorem redrawExactlyForDisplayInstructions : Obligations.RedrawExactlyForDisplayInstructions := by
  intro i s h _
  cases hf : faultOf i s with
  | none => exact ⟨_, exec_of_faultOf_none hf, (completed_redraw_iff h).trans (and_iff_left rfl).symm⟩
  | some c =>
    obtain ⟨t, ht, -, hredraw, -⟩ := raise_spec c s
    exact ⟨t, (exec_of_faultOf_some hf).trans ht, iff_of_false (by simp [hredraw]) (fun ⟨_, hn⟩ => nomatch hn)⟩

end Sys2Proof.Machine
end

section
/-! PROOFS. Control flow (41_control_flow.md): the two jumps, the subroutine call and its return, and the compare
skips. -/

namespace Sys2Proof.Machine

/-- A fault of the table is taken: `raise` keeps what `TakesFault` says it keeps. -/
theorem takesFault_of_faultOf {i : Instr} {s : State} {c : Fault} (h : faultOf i s = some c) : TakesFault i s c := by
  obtain ⟨t, ht, hrun, hredraw, hpar, hinbox, hkeys, hrnd, hstarted, -⟩ := raise_spec c s
  exact ⟨t, (exec_of_faultOf_some h).trans ht, hrun, hredraw, hpar, hinbox, hkeys, hrnd, hstarted⟩

/-! ## Jumps (R101, R108) -/

/-- Settles O34: the word is a row of the opcode map, and the target keeps its value at register width. -/
theorem jumpAssignsItsTarget : Obligations.JumpAssignsItsTarget := by
  obtain ⟨-, -, hrow, -⟩ := everyTableRowDecodesToItsInstruction
  exact ⟨hrow, fun nnn _ => ⟨_, rfl, zextAddr_toNat nnn, rfl⟩⟩

/-- The sum of a target and a byte fits in 16 bits, so that nothing is reduced. -/
theorem jumpPlusV0_target_toNat (nnn : Addr) (b : Byte) : (zextAddr nnn + zextByte b).toNat = nnn.toNat + b.toNat := by
  have hnnn : nnn.toNat < 4096 := nnn.isLt
  have hb : b.toNat < 256 := b.isLt
  rw [BitVec.toNat_add, zextAddr_toNat, zextByte_toNat]
  omega

/-- Settles O39: the value and the bound of the target. -/
theorem jumpPlusV0AddsWithoutReduction : Obligations.JumpPlusV0AddsWithoutReduction := fun nnn s =>
  ⟨_, rfl, jumpPlusV0_target_toNat nnn (s.reg 0), jumpPlusV0_target_le nnn (s.reg 0), rfl⟩

/-! ## Call and return (R100, R102) -/

theorem exec_ret_of_append {s : State} {older : List Word} {a : Word} (h : s.stack = older ++ [a]) :
    exec .ret s = .next { s with pc := a, stack := older } := by
  simp only [exec, execRet, pop_append h, complete_ok]

theorem exec_call_of_not_full (nnn : Addr) {s : State} (h : s.par.stackDepth ≠ some s.stack.length) :
    exec (.call nnn) s = .next { s with pc := zextAddr nnn, stack := s.stack ++ [s.pc] } :=
  exec_of_faultOf_none (if_neg h)

/-- Settles O35: an entry on top is popped, and the table gives the empty stack its fault. -/
theorem returnPopsTheMostRecentEntry : Obligations.ReturnPopsTheMostRecentEntry := fun _ =>
  ⟨fun _ _ => exec_ret_of_append, fun hempty => takesFault_of_faultOf (if_pos hempty)⟩

/-- Settles O36: the entry is pushed where there is room, and the table gives the full stack its fault. -/
theorem callPushesTheAdvancedPc : Obligations.CallPushesTheAdvancedPc := fun nnn _ =>
  ⟨fun hroom => ⟨_, exec_call_of_not_full nnn hroom, zextAddr_toNat nnn, rfl, rfl⟩,
    fun hfull => takesFault_of_faultOf (if_pos hfull)⟩

/-- Settles O37: the entry that the call pushed is the most recent one. -/
theorem returnUndoesCall : Obligations.ReturnUndoesCall := fun nnn _ _ hroom =>
  ⟨_, exec_call_of_not_full nnn hroom, exec_ret_of_append⟩

/-! ## Compare skips (R103 to R106) -/

/-- An instruction that leaves `skippedPc` is a skip on what its Boolean condition decides. -/
theorem skipsWhen_of_skippedPc {i : Instr} {s : State} {b : Bool} {c : Prop}
    (h : exec i s = .next { s with pc := skippedPc b s }) (hb : b = true ↔ c) : SkipsWhen i s c := by
  refine ⟨_, h, fun hc => ?_, fun hc => ?_⟩
  · rw [hb.mpr hc]
    rfl
  · rw [Bool.eq_false_iff.mpr (mt hb.mp hc)]
    rfl

/-- Settles O38: each of the four leaves `skippedPc` on a comparison of bytes. -/
theorem compareSkipsAddTwoToPc : Obligations.CompareSkipsAddTwoToPc := fun _ _ _ _ =>
  ⟨skipsWhen_of_skippedPc (exec_of_faultOf_none rfl) beq_iff_eq,
    skipsWhen_of_skippedPc (exec_of_faultOf_none rfl) bne_iff_ne,
    skipsWhen_of_skippedPc (exec_of_faultOf_none rfl) beq_iff_eq,
    skipsWhen_of_skippedPc (exec_of_faultOf_none rfl) bne_iff_ne⟩

end Sys2Proof.Machine
end

section
/-! PROOFS. Registers, arithmetic and logic (42_alu.md): the instructions that write their destination only, and those
that write the flag register before it. -/

namespace Sys2Proof.Machine

/-! ## Instructions without a flag (R121 to R126, R132) -/

theorem writesReg_of_exec {i : Instr} {s : State} {x : Reg} {v : Byte} (h : exec i s = .next (s.setReg x v)) :
    WritesReg i s x v :=
  ⟨_, h, reg_setReg_same s x v, setReg_registersOnly s x v⟩

/-- Settles O40: the word is a row of the opcode map, and the immediate is written to the destination. -/
theorem loadImmWritesItsImmediate : Obligations.LoadImmWritesItsImmediate := by
  obtain ⟨-, -, -, -, -, -, -, hrow, -⟩ := everyTableRowDecodesToItsInstruction
  exact ⟨hrow, fun _ _ _ => writesReg_of_exec rfl⟩

/-- The sum of two bytes is the sum modulo 256 of their values. -/
theorem add_eq_ofNat_mod (a b : Byte) : a + b = BitVec.ofNat 8 ((a.toNat + b.toNat) % 256) := by
  apply BitVec.eq_of_toNat_eq
  rw [BitVec.toNat_add, BitVec.toNat_ofNat, Nat.mod_mod]

/-- Settles O41: each of the six is a single register write; only the sum of `add-imm` needs its value. -/
theorem movesAndLogicWriteOnlyTheirDestination : Obligations.MovesAndLogicWriteOnlyTheirDestination := by
  refine fun x _ nn s => ⟨?_, writesReg_of_exec rfl, writesReg_of_exec rfl, writesReg_of_exec rfl,
    writesReg_of_exec rfl, writesReg_of_exec rfl⟩
  rw [← add_eq_ofNat_mod (s.reg x) nn]
  exact writesReg_of_exec rfl

/-! ## The flag, then the result (R120) -/

theorem setFlag_setReg_registersOnly (s : State) (x : Reg) (f v : Byte) :
    RegistersOnly [x, 0xF] s ((s.setFlag f).setReg x v) where
  regs r hr := by
    obtain ⟨hx, hflag⟩ : r ≠ x ∧ r ≠ 0xF := by simpa using hr
    rw [reg_setReg_ne _ v hx, reg_setFlag, if_neg hflag]
  mem _ := rfl
  rest := rfl

/-- The flag stands unless the result overwrites it (D7). -/
theorem flag_setFlag_setReg (s : State) {x : Reg} (f v : Byte) (h : x ≠ 0xF) :
    ((s.setFlag f).setReg x v).reg 0xF = f := by
  rw [reg_setReg_ne _ v h.symm, reg_setFlag, if_pos rfl]

theorem flagByte_decide (p : Prop) [Decidable p] : flagByte (decide p) = if p then 1 else 0 := by
  simp [flagByte]

theorem carryFlag_eq_ite (a b : Byte) : carryFlag a b = if a.toNat + b.toNat > 255 then 1 else 0 := flagByte_decide _

theorem greaterFlag_eq_ite (a b : Byte) : greaterFlag a b = if a.toNat > b.toNat then 1 else 0 := flagByte_decide _

/-- Settles O42: the sum is formed before the flag is written, so that the flag reaches neither operand. -/
theorem addRegWritesSumAndCarry : Obligations.AddRegWritesSumAndCarry := by
  refine fun x y s => ⟨_, rfl, setFlag_setReg_registersOnly s x _ _, ?_, fun hx => ?_⟩
  · rw [reg_setReg_same, BitVec.toNat_add]
  · rw [flag_setFlag_setReg s _ _ hx, carryFlag_eq_ite]

/-- Settles O43: the difference reads each operand from the state after the flag write, as `reg_setFlag` says. -/
theorem subtractionsWriteNoBorrowFlagFirst : Obligations.SubtractionsWriteNoBorrowFlagFirst := by
  refine fun x y s =>
    ⟨⟨_, rfl, setFlag_setReg_registersOnly s x _ _, _, greaterFlag_eq_ite _ _, flag_setFlag_setReg s _ _, ?_⟩,
      ⟨_, rfl, setFlag_setReg_registersOnly s x _ _, _, greaterFlag_eq_ite _ _, flag_setFlag_setReg s _ _, ?_⟩⟩
  all_goals rw [reg_setReg_same, reg_setFlag, reg_setFlag]

/-! ## Shifts (R129, R131) -/

theorem lowBitFlag_toNat (a : Byte) : (lowBitFlag a).toNat = a.toNat % 2 := by
  rw [lowBitFlag, BitVec.toNat_and]
  exact Nat.and_one_is_mod a.toNat

theorem highBitFlag_eq_flagByte_getLsbD (a : Byte) : highBitFlag a = flagByte (a.getLsbD 7) := by
  have hmask : a &&& 0x80 = if a.getLsbD 7 then 0x80 else 0 := BitVec.and_twoPow a 7
  rw [highBitFlag, hmask]
  cases a.getLsbD 7 with
  | _ => rfl

theorem highBitFlag_toNat (a : Byte) : (highBitFlag a).toNat = a.toNat / 128 := by
  have ha : a.toNat < 256 := a.isLt
  have hbit : a.getLsbD 7 = decide (a.toNat / 128 % 2 = 1) := Nat.testBit_eq_decide_div_mod_eq
  rw [highBitFlag_eq_flagByte_getLsbD, hbit, flagByte_decide]
  split
  · change 1 = a.toNat / 128
    omega
  · change 0 = a.toNat / 128
    omega

theorem toNat_shiftRight_one (a : Byte) : (a >>> 1).toNat = a.toNat / 2 := by
  rw [BitVec.toNat_ushiftRight, Nat.shiftRight_one]

theorem toNat_shiftLeft_one (a : Byte) : (a <<< 1).toNat = 2 * a.toNat % 256 := by
  rw [BitVec.toNat_shiftLeft, Nat.shiftLeft_eq, Nat.mul_comm]

/-- What a shift of register 0xF leaves of the low bit: the flag is shifted out in its turn (D7). -/
theorem lowBitFlag_shiftRight_one (a : Byte) : lowBitFlag a >>> 1 = 0 := by
  apply BitVec.eq_of_toNat_eq
  rw [toNat_shiftRight_one, lowBitFlag_toNat]
  exact Nat.div_eq_of_lt (Nat.mod_lt _ two_pos)

theorem highBitFlag_shiftLeft_one_toNat (a : Byte) : (highBitFlag a <<< 1).toNat = 2 * (a.toNat / 128) := by
  have ha : a.toNat < 256 := a.isLt
  rw [toNat_shiftLeft_one, highBitFlag_toNat]
  omega

/-- Settles O44: the shift reads `V[x]` after the flag write, which is the flag itself where `x` is 0xF. -/
theorem shiftsWriteTheBitShiftedOut : Obligations.ShiftsWriteTheBitShiftedOut := by
  refine fun x s => ⟨⟨_, rfl, setFlag_setReg_registersOnly s x _ _, fun hx => ⟨?_, ?_⟩, fun hx => ?_⟩,
    ⟨_, rfl, setFlag_setReg_registersOnly s x _ _, fun hx => ⟨?_, ?_⟩, fun hx => ?_⟩⟩
  · rw [flag_setFlag_setReg s _ _ hx, lowBitFlag_toNat]
  · rw [reg_setReg_same, reg_setFlag, if_neg hx, toNat_shiftRight_one]
  · rw [hx, reg_setReg_same, reg_setFlag, if_pos rfl, lowBitFlag_shiftRight_one]
  · rw [flag_setFlag_setReg s _ _ hx, highBitFlag_toNat]
  · rw [reg_setReg_same, reg_setFlag, if_neg hx, toNat_shiftLeft_one]
  · rw [hx, reg_setReg_same, reg_setFlag, if_pos rfl, highBitFlag_shiftLeft_one_toNat]

end Sys2Proof.Machine
end

section
/-! PROOFS. The index register and the memory transfers (43_index_memory.md): the three writers of `I`, the two block
stores and the block load. -/

namespace Sys2Proof.Machine

/-! ## The writers of `I` (R141 to R143) -/

/-- The sum of `I` and a byte wraps modulo 65536 (D5). -/
theorem add_zextByte_toNat (w : Word) (b : Byte) : (w + zextByte b).toNat = (w.toNat + b.toNat) % 65536 := by
  rw [BitVec.toNat_add, zextByte_toNat]

/-- Five times a byte is at most 1275, so that the product is not reduced. -/
theorem zextByte_mul_five_toNat (b : Byte) : (zextByte b * 5).toNat = b.toNat * 5 := by
  have hb : b.toNat < 256 := b.isLt
  rw [BitVec.toNat_mul, zextByte_toNat]
  exact Nat.mod_eq_of_lt (show b.toNat * 5 < 65536 by omega)

/-- Settles O45: each of the three updates `I` alone; the lemmas above give the value. -/
theorem indexInstructionsWriteOnlyI : Obligations.IndexInstructionsWriteOnlyI := fun x nnn s =>
  ⟨⟨_, rfl, zextAddr_toNat nnn, rfl⟩, ⟨_, rfl, add_zextByte_toNat s.I (s.reg x), rfl⟩,
    ⟨_, rfl, zextByte_mul_five_toNat (s.reg x), rfl⟩⟩

/-! ## Bytes placed in a canonical Memory (R140) -/

theorem byteAt_place {s : State} {bs : List Byte} {a k : Nat} (hm : Memory.wf s.par.font s.mem)
    (hfit : a + bs.length ≤ 4096) (hk : k < bs.length) :
    ({ s with mem := Memory.place s.par.font bs a s.mem } : State).byteAt (a + k) = bs[k] := by
  refine (Memory.read_place s.par.font bs a s.mem hm hfit (a + k)).trans ?_
  simp only [Nat.add_sub_cancel_left]
  exact dif_pos ⟨Nat.le_add_right a k, hk⟩

theorem place_bytesOnly {s : State} {bs : List Byte} {a : Nat} (hm : Memory.wf s.par.font s.mem)
    (hfit : a + bs.length ≤ 4096) :
    BytesOnly a bs.length s { s with mem := Memory.place s.par.font bs a s.mem } where
  mem b hb := (Memory.read_place s.par.font bs a s.mem hm hfit b).trans (dif_neg (by omega))
  rest := rfl

/-! ## The block stores (R144, R145) -/

/-- The digits of a byte fit in a byte, so that nothing is reduced. -/
theorem bcdDigits_toNat (v : Byte) :
    (bcdDigits v)[0].toNat = v.toNat / 100 ∧ (bcdDigits v)[1].toNat = v.toNat / 10 % 10 ∧
      (bcdDigits v)[2].toNat = v.toNat % 10 := by
  have hv : v.toNat < 256 := v.isLt
  refine ⟨Nat.mod_eq_of_lt (b := 256) ?_, Nat.mod_eq_of_lt (b := 256) ?_, Nat.mod_eq_of_lt (b := 256) ?_⟩
  all_goals omega

/-- `store-bcd` stores digit `k` at `I + k`. -/
theorem completed_storeBcd_byteAt (x : Reg) {s : State} {k : Nat} (hm : Memory.wf s.par.font s.mem)
    (hfit : s.I.toNat + 3 ≤ 4096) (hk : k < 3) :
    (completed (.storeBcd x) s).byteAt (effAddr s k) = (bcdDigits (s.reg x))[k] :=
  byteAt_place hm hfit hk

/-- Settles O46: the three stored bytes are the decimal digits, from which the value comes back. -/
theorem storeBcdWritesThreeDigits : Obligations.StoreBcdWritesThreeDigits := by
  intro x s hm hI
  have hv : (s.reg x).toNat < 256 := (s.reg x).isLt
  have hfit : s.I.toNat + 3 ≤ 4096 := by omega
  have hbytes : BytesOnly (effAddr s 0) 3 s (completed (.storeBcd x) s) :=
    place_bytesOnly (bs := bcdDigits (s.reg x)) hm hfit
  refine ⟨_, exec_of_faultOf_none (transferFault_eq_none hfit), hbytes, ?_⟩
  rw [completed_storeBcd_byteAt x hm hfit (by decide), completed_storeBcd_byteAt x hm hfit (by decide),
    completed_storeBcd_byteAt x hm hfit (by decide)]
  obtain ⟨hhundreds, htens, hones⟩ := bcdDigits_toNat (s.reg x)
  omega

/-- Settles O47: the list placed at `I` has the `x + 1` registers up to `V[x]`, each at its own number. -/
theorem regDumpWritesTheRegistersInOrder : Obligations.RegDumpWritesTheRegistersInOrder := by
  intro x s hm hfit
  have hend : s.I.toNat + (x.toNat + 1) ≤ 4096 := by omega
  refine ⟨_, exec_of_faultOf_none (transferFault_eq_none hend), ?_, fun r hr => completed_regDump_byteAt hm hfit hr⟩
  rw [← regsUpTo_length s x] at hend ⊢
  exact place_bytesOnly hm hend

/-! ## The block load (R146) -/

/-- `reg-load` loads register `r` from `I + r`. -/
theorem reg_regLoad_upTo {x r : Reg} {s : State} (h : r ≤ x) :
    (completed (.regLoad x) s).reg r = s.byteAt (effAddr s r.toNat) := by
  have hle : r.toNat ≤ x.toNat := h
  have hin : 0 ≤ r.toNat ∧ r.toNat - 0 < (bytesAtI s (x.toNat + 1)).length := by
    rw [bytesAtI, List.length_map, List.length_range]
    omega
  refine (load_getElem _ 0 s.V r.toNat r.isLt).trans ((dif_pos hin).trans ?_)
  simp [bytesAtI, effAddr]

/-- Settles O48: the registers up to `V[x]` are loaded, and those above it lie past the end of the list. -/
theorem regLoadReadsTheRegistersInOrder : Obligations.RegLoadReadsTheRegistersInOrder := fun x s hfit =>
  ⟨_, exec_of_faultOf_none (transferFault_eq_none (show s.I.toNat + (x.toNat + 1) ≤ 4096 by omega)),
    fun _ => reg_regLoad_upTo, fun _ => reg_regLoad_above, fun _ => rfl, rfl⟩

end Sys2Proof.Machine
end

section
/-! PROOFS. The display (44_display.md): the two primitives on the framebuffer, `clear-screen`, and `draw` as a list of
toggles on the pixels its sprite covers. -/

namespace Sys2Proof.Machine

/-! ## The primitives and `clear-screen` (R150, R151) -/

/-- Settles O51: a single toggle answers the pixel it found. -/
theorem togglePixelFlipsOneReducedPoint : Obligations.TogglePixelFlipsOneReducedPoint :=
  ⟨pixel_clearedFb, fun fb cx cy => ⟨fun dx dy => pixel_togglePixel cx cy dx dy fb, Bool.or_false _⟩⟩

/-- Settles O52: the framebuffer it leaves is the cleared one. -/
theorem clearScreenClearsEveryPixel : Obligations.ClearScreenClearsEveryPixel :=
  fun _ => ⟨_, rfl, pixel_clearedFb, rfl, rfl⟩

/-! ## The points `draw` toggles (R152) -/

/-- The points of the sprite that `draw` takes from memory at `I`, before they are reduced to the grid. -/
def drawPoints (x y : Reg) (n : Nat) (s : State) : List (Nat × Nat) :=
  spritePoints s.par.spriteMsbFirst (s.reg x).toNat (s.reg y).toNat (bytesAtI s n)

theorem drawn_eq_toggleAll_drawPoints (x y : Reg) (n : Nat) (s : State) :
    drawn x y n s = toggleAll (drawPoints x y n s) s.fb := rfl

@[simp] theorem bytesAtI_length (s : State) (n : Nat) : (bytesAtI s n).length = n := by simp [bytesAtI]

@[simp] theorem bytesAtI_getElem (s : State) {n r : Nat} (h : r < (bytesAtI s n).length) :
    (bytesAtI s n)[r] = s.byteAt (s.I.toNat + r) := by simp [bytesAtI]

theorem drawPoints_distinct (x y : Reg) {n : Nat} (s : State) (h : n ≤ 15) : DistinctPixels (drawPoints x y n s) :=
  spritePoints_distinct _ _ _ _ (by rw [bytesAtI_length]; omega)

theorem spriteBit_eq_getLsbD (msb : Bool) (b : Byte) (col : Nat) :
    spriteBit msb b col = b.getLsbD (if msb then 7 - col else col) := (apply_ite b.getLsbD (msb = true) _ _).symm

theorem mem_drawPoints {x y : Reg} {n : Nat} {s : State} {p : Nat × Nat} :
    p ∈ drawPoints x y n s ↔ ∃ r < n, ∃ c < 8,
      (s.byteAt (s.I.toNat + r)).getLsbD (if s.par.spriteMsbFirst then 7 - c else c) = true ∧
      p = ((s.reg x).toNat + c, (s.reg y).toNat + r) := by
  rw [drawPoints, mem_spritePoints]
  simp only [bytesAtI_length, bytesAtI_getElem, spriteBit_eq_getLsbD, exists_prop]

/-- A grid pixel is covered when a point of the sprite falls on it. -/
theorem covered_iff_exists_samePixel {x y : Reg} {n : Nat} {s : State} {col row : Nat} (hc : col < 64)
    (hr : row < 32) : Covered x y n s col row ↔ ∃ p ∈ drawPoints x y n s, SamePixel p col row := by
  simp only [Covered, mem_drawPoints, SamePixel, Nat.mod_eq_of_lt hc, Nat.mod_eq_of_lt hr]
  constructor
  · rintro ⟨r, hrn, c, hc8, hbit, hcol, hrow⟩
    exact ⟨_, ⟨r, hrn, c, hc8, hbit, rfl⟩, hcol, hrow⟩
  · rintro ⟨_, ⟨r, hrn, c, hc8, hbit, rfl⟩, hcol, hrow⟩
    exact ⟨r, hrn, c, hc8, hbit, hcol, hrow⟩

/-! ## What `draw` leaves (R152) -/

theorem pixel_eq_of_samePixel {p : Nat × Nat} {dx dy : Nat} (fb : Framebuffer) (h : SamePixel p dx dy) :
    pixel fb p.1 p.2 = pixel fb dx dy := by
  obtain ⟨hx, hy⟩ := h
  simp only [pixel, hx, hy]

/-- `draw` collides exactly when a covered pixel was set. -/
theorem drawn_collides_iff (x y : Reg) {n : Nat} (s : State) (h : n ≤ 15) :
    (drawn x y n s).2 = true ↔
      ∃ col < 64, ∃ row < 32, Covered x y n s col row ∧ pixel s.fb col row = true := by
  rw [drawn_eq_toggleAll_drawPoints, toggleAll_hit _ _ (drawPoints_distinct x y s h)]
  constructor
  · rintro ⟨p, hp, hset⟩
    have hcol : p.1 % 64 < 64 := Nat.mod_lt _ (by decide)
    have hrow : p.2 % 32 < 32 := Nat.mod_lt _ (by decide)
    have hsame : SamePixel p (p.1 % 64) (p.2 % 32) := ⟨(Nat.mod_mod _ _).symm, (Nat.mod_mod _ _).symm⟩
    exact ⟨_, hcol, _, hrow, (covered_iff_exists_samePixel hcol hrow).mpr ⟨p, hp, hsame⟩,
      (pixel_eq_of_samePixel s.fb hsame).symm.trans hset⟩
  · rintro ⟨col, hcol, row, hrow, hcov, hset⟩
    obtain ⟨p, hp, hsame⟩ := (covered_iff_exists_samePixel hcol hrow).mp hcov
    exact ⟨p, hp, (pixel_eq_of_samePixel s.fb hsame).trans hset⟩

theorem completed_draw_reg (x y r : Reg) (n : Nat) (s : State) :
    (completed (.draw x y n) s).reg r = if r = 0xF then collisionFlag (drawn x y n s).2 else s.reg r :=
  reg_setFlag s r _

theorem faultOf_draw_eq_none (x y : Reg) {n : Nat} {s : State} (h : n = 0 ∨ s.I.toNat + n ≤ 4096) :
    faultOf (.draw x y n) s = none := if_neg (by omega)

/-- Settles O53: the points are distinct pixels, so each covered pixel is toggled once and met as it was before. -/
theorem drawXorsTheSpriteAndReportsCollision : Obligations.DrawXorsTheSpriteAndReportsCollision := by
  intro x y n s hn hfit
  have hpixel := pixel_toggleAll (drawPoints x y n s) s.fb (drawPoints_distinct x y s hn)
  refine ⟨_, exec_of_faultOf_none (faultOf_draw_eq_none x y hfit), ?flips, ?keeps, ?collides, ?clear, ?regs,
    fun _ => rfl, rfl, rfl⟩
  case flips => exact fun col hcol row hrow hcov =>
    (hpixel col row).1 ((covered_iff_exists_samePixel hcol hrow).mp hcov)
  case keeps => exact fun col hcol row hrow hcov =>
    (hpixel col row).2 (hcov ∘ (covered_iff_exists_samePixel hcol hrow).mpr)
  case collides =>
    intro hset
    rw [completed_draw_reg, if_pos rfl, (drawn_collides_iff x y s hn).mpr hset]
    rfl
  case clear =>
    intro hclear
    have hmiss : (drawn x y n s).2 = false := by
      rw [← Bool.not_eq_true, drawn_collides_iff x y s hn]
      rintro ⟨col, hcol, row, hrow, hcov, hset⟩
      exact Bool.false_ne_true ((hclear col hcol row hrow hcov).symm.trans hset)
    rw [completed_draw_reg, if_pos rfl, hmiss]
    rfl
  case regs => exact fun r hr => (completed_draw_reg x y r n s).trans (if_neg hr)

/-- `draw` writes no register but the flag, so it leaves the sprite of a further `draw` at the same place. -/
theorem drawPoints_completed_draw {x y : Reg} (n : Nat) (s : State) (hx : x ≠ 0xF) (hy : y ≠ 0xF) :
    drawPoints x y n (completed (.draw x y n) s) = drawPoints x y n s := by
  rw [drawPoints, completed_draw_reg, completed_draw_reg, if_neg hx, if_neg hy]
  rfl

/-- Settles O54: both draws toggle one list of points. -/
theorem drawTwiceRestoresTheFramebuffer : Obligations.DrawTwiceRestoresTheFramebuffer := by
  intro x y n s hx hy hfit
  refine ⟨_, _, exec_of_faultOf_none (faultOf_draw_eq_none x y hfit),
    exec_of_faultOf_none (faultOf_draw_eq_none x y hfit), ?_⟩
  change (drawn x y n (completed (.draw x y n) s)).1 = s.fb
  rw [drawn_eq_toggleAll_drawPoints, drawPoints_completed_draw n s hx hy]
  exact toggleAll_twice (drawPoints x y n s) s.fb

end Sys2Proof.Machine
end

section
/-! PROOFS. The keypad (45_timers_keypad.md): the two key skips, and `wait-key` with the cycles that follow it on the
same keys. -/

namespace Sys2Proof.Machine

/-! ## Key skips (R160, R161, R166) -/

theorem keyFault_of_le {v : Byte} (h : v.toNat ≤ 0x0F) : keyFault v = none := if_neg (Nat.not_lt.mpr h)

theorem keyFault_of_lt {v : Byte} (h : 0x0F < v.toNat) : keyFault v = some (.keyIndexOutOfRange v) := if_pos h

/-- Settles O56: on a key both skips leave `skippedPc` on its level, and the table gives a larger value its fault. -/
theorem keySkipsFollowTheKeyLevel : Obligations.KeySkipsFollowTheKeyLevel := by
  refine fun x s => ⟨fun hkey => ?level, fun hkey => ?fault⟩
  case level =>
    have hpressed : faultOf (.skipKeyPressed x) s = none := keyFault_of_le hkey
    have hreleased : faultOf (.skipKeyReleased x) s = none := keyFault_of_le hkey
    exact ⟨skipsWhen_of_skippedPc (exec_of_faultOf_none hpressed) Iff.rfl,
      skipsWhen_of_skippedPc (exec_of_faultOf_none hreleased) (iff_of_eq (Bool.not_eq_true' _))⟩
  case fault => exact ⟨takesFault_of_faultOf (keyFault_of_lt hkey), takesFault_of_faultOf (keyFault_of_lt hkey)⟩

/-! ## A wait on held keys (R163, R78) -/

/-- A key that was down at the previous sample is not fresh. -/
theorem freshKeys_eq_zero_of_held {s : State} (h : s.keys = s.prevKeys) : freshKeys s = 0 := by
  rw [freshKeys, h]
  exact BitVec.and_not_self _

/-- A waiting machine that samples the keys it holds takes the sample and waits on. -/
theorem deliver_cycle_held {x : Reg} {r : Byte} {s : State} (hs : s.started = true) (hr : s.run = .awaitingKey x) :
    deliver (.cycle s.prevKeys r) s = .next (sampleInputs s.prevKeys r s) := by
  have hfresh : freshKeys (sampleInputs s.prevKeys r s) = 0 := freshKeys_eq_zero_of_held rfl
  rw [deliver_cycle hs, cycle_awaitingKey hr, awaitKey_of_freshKeys_zero hfresh]
  rfl

theorem exec_waitKey (x : Reg) (s : State) :
    exec (.waitKey x) s = .next { s with prevKeys := s.keys, run := .awaitingKey x } := exec_of_faultOf_none rfl

/-- Settles O57: `wait-key` takes this cycle's keys as held, so that a cycle with the same keys finds none fresh. -/
theorem waitKeySuspendsUntilAFreshPress : Obligations.WaitKeySuspendsUntilAFreshPress := fun x s =>
  ⟨_, exec_waitKey x s, rfl, fun hs _ =>
    deliver_cycle_held (s := { s with prevKeys := s.keys, run := .awaitingKey x }) hs rfl⟩

end Sys2Proof.Machine
end

section
/-! PROOFS. The exceptions (60_exceptions.md): the fault table instruction by instruction, that a started machine always
steps on, that only a `Reset` leaves a fault, and the two stack faults. -/

namespace Sys2Proof.Machine

/-! ## The fault table (R170, R175) -/

/-- Settles O22: an instruction raises the fault that the table gives it, and completes where it gives none. -/
theorem instructionsFaultExactlyAsTheTableSays : Obligations.InstructionsFaultExactlyAsTheTableSays := fun _ _ hr =>
  ⟨fun _ => takesFault_of_faultOf, fun hf => ⟨_, exec_of_faultOf_none hf, completed_run hr⟩⟩

/-! ## A started machine steps on (R171, R190) -/

/-- A raised fault is a next state too. -/
theorem exec_answers_next (i : Instr) (s : State) : ∃ t, exec i s = .next t := by
  cases hf : faultOf i s with
  | none => exact ⟨_, exec_of_faultOf_none hf⟩
  | some c => exact ⟨_, exec_of_faultOf_some hf⟩

theorem executeWord_answers_next (w : Word) (s : State) : ∃ t, executeWord w s = .next t := by
  unfold executeWord
  split
  · exact exec_answers_next _ s
  · exact ⟨s, rfl⟩

theorem cycle_answers_next (k : Keys) (r : Byte) (s : State) : ∃ t, cycle k r s = .next t := by
  cases hr : s.run with
  | halted | faulted => exact ⟨_, cycle_ended (by simp [State.ended, hr])⟩
  | awaitingKey x => exact ⟨_, cycle_awaitingKey hr⟩
  | running =>
    simp only [cycle_eq, hr]
    split
    · exact ⟨_, rfl⟩
    · exact executeWord_answers_next _ _

theorem deliver_answers_next (e : HostEvent) {s : State} (h : s.started = true) : ∃ t, deliver e s = .next t := by
  cases e with
  | reset image => exact ⟨_, rfl⟩
  | tick => exact ⟨_, deliver_tick h⟩
  | cycle k r =>
    rw [deliver_cycle h]
    exact cycle_answers_next k r s

theorem step_answers_next {s : State} (h : s.started = true) : ∃ t, step s = .next t := by
  cases hi : s.inbox with
  | nil =>
    obtain ⟨n, k, r, hfree⟩ := freeStep_started h
    rw [step_nil hi, hfree]
    exact cycle_answers_next k r _
  | cons e rest =>
    rw [step_cons hi]
    exact deliver_answers_next e h

/-- Between a refused load and the next `Reset` a step is refused, with or without a pending event. -/
theorem step_of_not_started {s : State} (h : s.started = false)
    (hreset : ∀ image rest, s.inbox ≠ .reset image :: rest) : step s = .refused .machineNotStarted := by
  cases hi : s.inbox with
  | nil =>
    rw [step_nil hi, freeStep]
    exact deliver_of_not_started h (fun _ => HostEvent.noConfusion)
  | cons e rest =>
    have he : ∀ image, e ≠ .reset image := fun image heq => hreset image rest (heq ▸ hi)
    exact (step_cons hi).trans (deliver_of_not_started h he)

/-- Settles O21: ticks, cycles and resets all answer a next state in a started machine, as every instruction does. -/
theorem startedMachineAlwaysHasANextState : Obligations.StartedMachineAlwaysHasANextState := fun _ =>
  ⟨step_answers_next, step_of_not_started⟩

/-! ## The way out of a fault (R171, 40_cycle.md R71) -/

/-- A step that is not a `Reset` finds an ended run and leaves it ended in the same way. -/
theorem step_run_of_ended {s t : State} (he : s.ended = true) (hreset : ∀ image rest, s.inbox ≠ .reset image :: rest)
    (h : step s = .next t) : t.run = s.run ∧ t.started = s.started := by
  obtain ⟨image, rest, hi, -⟩ | ⟨rest, -, -, rfl⟩ | ⟨k, r, rest, -, -, hc⟩ | ⟨n, k, r, -, -, hc⟩ := step_cases h
  · exact absurd hi (hreset image rest)
  · exact ⟨rfl, rfl⟩
  · rw [cycle_ended (s := { s with inbox := rest }) he] at hc
    cases hc
    exact ⟨rfl, rfl⟩
  · rw [cycle_ended (s := ticks n { s with draws := s.draws + 1 }) he] at hc
    cases hc
    exact ⟨rfl, rfl⟩

theorem report_of_faulted {s : State} {c : Fault} (hs : s.started = true) (hr : s.run = .faulted c) :
    s.report = .faulted c := by
  simp [State.report, hs, hr]

/-- Settles O12: there is a next state, and a faulted run is an ended one. -/
theorem onlyResetLeavesAFault : Obligations.OnlyResetLeavesAFault := by
  intro s c hr hs hreset
  have hended : s.ended = true := by simp [State.ended, hr]
  obtain ⟨t, h⟩ := step_answers_next hs
  obtain ⟨hrun, hstarted⟩ := step_run_of_ended hended hreset h
  rw [hr] at hrun
  rw [hs] at hstarted
  exact ⟨t, h, hrun, hstarted, report_of_faulted hstarted hrun⟩

/-! ## The two stack faults (R172, R174) -/

/-- In the table, `StackUnderflow` stands with `return` only. -/
theorem faultOf_eq_stackUnderflow_iff {i : Instr} {s : State} :
    faultOf i s = some .stackUnderflow ↔ i = .ret ∧ s.stack = [] := by
  refine ⟨fun h => ?_, fun ⟨hi, hs⟩ => hi ▸ if_pos hs⟩
  cases i with
  | ret => exact ⟨rfl, by simpa [faultOf] using h⟩
  | call => simp [faultOf] at h
  | draw | storeBcd | regDump | regLoad => obtain ⟨-, -, ⟨⟩⟩ := transferFault_some h
  | skipKeyPressed | skipKeyReleased => obtain ⟨-, ⟨⟩⟩ := keyFault_some h
  | _ => cases h

/-- In the table, `StackOverflow` stands with `call` only, and with a bounded stack. -/
theorem faultOf_eq_stackOverflow_iff {i : Instr} {s : State} :
    faultOf i s = some .stackOverflow ↔ s.par.stackDepth = some s.stack.length ∧ ∃ nnn, i = .call nnn := by
  refine ⟨fun h => ?_, fun ⟨hfull, nnn, hi⟩ => hi ▸ if_pos hfull⟩
  cases i with
  | call nnn => exact ⟨by simpa [faultOf] using h, nnn, rfl⟩
  | ret => simp [faultOf] at h
  | draw | storeBcd | regDump | regLoad => obtain ⟨-, -, ⟨⟩⟩ := transferFault_some h
  | skipKeyPressed | skipKeyReleased => obtain ⟨-, ⟨⟩⟩ := keyFault_some h
  | _ => cases h

/-- Settles O23: the table's row, read both ways; a step that faults a machine has fetched an instruction of it. -/
theorem underflowComesOnlyFromReturnOnEmptyStack : Obligations.UnderflowComesOnlyFromReturnOnEmptyStack := by
  refine ⟨fun s hs => takesFault_of_faultOf (faultOf_eq_stackUnderflow_iff.mpr ⟨rfl, hs⟩), fun s t hs h ht => ?_⟩
  obtain ⟨-, i, hd, hf⟩ := faultOf_of_step_faulted hs h ht
  obtain ⟨rfl, hempty⟩ := faultOf_eq_stackUnderflow_iff.mp hf
  exact ⟨hempty, hd⟩

/-- Settles O24: as O23, by the row of `StackOverflow`. -/
theorem overflowComesOnlyFromCallOnFullStack : Obligations.OverflowComesOnlyFromCallOnFullStack := by
  refine ⟨fun s nnn d hd hlen => ?_, fun s t hs h ht => ?_⟩
  · exact takesFault_of_faultOf (faultOf_eq_stackOverflow_iff.mpr ⟨hlen ▸ hd, nnn, rfl⟩)
  · obtain ⟨-, i, hd, hf⟩ := faultOf_of_step_faulted hs h ht
    obtain ⟨hfull, nnn, rfl⟩ := faultOf_eq_stackOverflow_iff.mp hf
    exact ⟨hfull, nnn, hd⟩

end Sys2Proof.Machine
end

section
/-! PROOFS. A step that takes a `Reset` (70_reset_and_hazards.md R190): the state it boots, field by field. -/

namespace Sys2Proof.Machine

/-- A pending `Reset` with an image that fits boots the machine; no run state of the old one is asked for. -/
theorem step_reset_of_fits {s : State} {image : List Byte} {rest : List HostEvent}
    (hinbox : s.inbox = .reset image :: rest) (hfits : image.length ≤ 3584) :
    step s = .next (bootState image { s with inbox := rest }) := by
  rw [step_cons hinbox, deliver, resetEvent_of_fits _ hfits]

@[simp] theorem bootState_reg (image : List Byte) (s : State) (r : Reg) : (bootState image s).reg r = 0 := by
  simp [State.reg]

/-- Settles O16: the booted state's Memory is the font, the image and zeros; its other fields are those of
`State.reset`, except the parameters, the later events and the free-value counter, which the step carries over. -/
theorem resetRebuildsTheWholeState : Obligations.ResetRebuildsTheWholeState := by
  intro s image rest hinbox hfits
  exact ⟨_, step_reset_of_fits hinbox hfits, fun _ => bootState_byteAt_font _ hfits,
    fun _ => bootState_byteAt_image _ hfits, fun _ => bootState_byteAt_zero _ hfits,
    bootState_reg _ _, rfl, rfl, rfl, rfl, rfl, pixel_clearedFb, rfl, rfl, rfl, rfl, rfl, rfl, rfl, rfl, rfl⟩

end Sys2Proof.Machine
end
